-- ==== Sys2Proof/Word.lean ====
section
/-! DEFINITION. Bytes, 32-bit words, byte vectors (00_scope.md section 4). -/

namespace Sys2Proof

/-- An unsigned integer 0..255; bit 0 is the least significant bit (R10). -/
abbrev Byte := BitVec 8

/-- A command or response word (R60). -/
abbrev Word := BitVec 32

/-- A byte vector, element 0 first (R10): a Key, a Block, a round key, a payload. -/
abbrev Bytes := List Byte

/-- `zeros(n)`: the vector of `n` bytes 0x00 (00_scope.md section 4). -/
def zeros (n : Nat) : Bytes := List.replicate n 0

end Sys2Proof
end

