-- ==== Sys2Proof/Config.lean ====
section
/-! DEFINITION. The algorithm parameter record `Alg` (R5) as plain data, and the values the spec leaves open.

The four reversible operations and the expansion rule are "fixed sequences of byte operations" (R105, R130); the record
holds them as such: layered byte circuits. Log entry 2 (DESIGN CHOICE). -/

namespace Sys2Proof

/-- One output byte of a combinational layer, computed from the layer's input bytes. All arithmetic is on unsigned bytes and
wraps modulo 256 (R11). -/
inductive ByteExpr where
  /-- byte `i` of the input vector -/
  | input (i : Nat)
  | const (b : Byte)
  | not (a : ByteExpr)
  | xor (a b : ByteExpr)
  | and (a b : ByteExpr)
  | or (a b : ByteExpr)
  /-- `a +8 b` -/
  | add (a b : ByteExpr)
  /-- `a -8 b` -/
  | sub (a b : ByteExpr)
  /-- the low byte of the integer product (R11) -/
  | mul (a b : ByteExpr)
  /-- `rotl8(a, n)` -/
  | rotl (n : Nat) (a : ByteExpr)
  /-- `eqmask8(a, b)` (R82) -/
  | eqmask (a b : ByteExpr)
deriving DecidableEq, Repr

/-- One layer of a fixed network of byte operations (R123, R130): it reads no table and takes no branch. -/
inductive Layer where
  /-- every output byte from the input bytes: permutations, xors, modular additions, constants -/
  | bytes (outs : List ByteExpr)
  /-- the whole vector as one big-endian integer, rotated left by `n` bits (R203) -/
  | rotl (n : Nat)
  /-- the whole vector as one big-endian integer, rotated right by `n` bits (R204) -/
  | rotr (n : Nat)
deriving DecidableEq, Repr

/-- One layer of the key expansion: a fixed network, or `SubBytes`/`SubWord` on the `n` bytes from `lo` on (R105: every
substitution goes through ConstantTimeSBox). -/
inductive KsLayer where
  | net (l : Layer)
  | subst (lo n : Nat)
deriving DecidableEq, Repr

/-- The expansion rule for the keys of one length (R5, R102). R105 lets `KS_INIT` and `KS_STEP` branch on the key length and on
the iteration's index, so each length has circuits of its own, with its own state widths and its own substitutions. -/
structure Expansion where
  /-- the key length `L` this rule is for -/
  keyBytes : Nat
  /-- `KS_INIT`: from the key to the bytes of the first expansion state -/
  init : List KsLayer
  /-- `KS_STEP`: entry `i` is the circuit of iteration `i`; its output is the round key followed by the bytes of the new state,
  as many as that circuit gives -/
  steps : List (List KsLayer)
deriving DecidableEq, Repr

/-- `KsState` (R5): the bytes of the expansion state, and the circuits of the steps, which the public key length selected. -/
structure KsState where
  steps : List (List KsLayer)
  bytes : Bytes
deriving DecidableEq, Repr

/-- `SBOX_STRATEGY` (R5, R81, R83). The formula is part of `Alg` (R83): one circuit with input 0 = `x` for `substitute`,
one for `substitute_inv`. -/
inductive SboxStrategy where
  | fullScan
  | formula (fwd inv : ByteExpr)
deriving DecidableEq, Repr

/-- The three stages of a round: key mixing, substitution, diffusion (R121-R123). -/
inductive Stage where
  | K | S | D
deriving DecidableEq, Repr

/-- `STAGE_ORDER`: the letters K, S, D, each exactly once (R5, R124). -/
inductive StageOrder where
  | ksd | kds | skd | sdk | dks | dsk
deriving DecidableEq, Repr

/-- The default key mixing (R121, D28): `KEYMIX(x,k)[i] = x[i] xor k[i]` on `n`-byte vectors, input `x || k`. -/
def xorKeymix (n : Nat) : List Layer :=
  [.bytes ((List.range n).map fun i => .xor (.input i) (.input (n + i)))]

/-- The algorithm parameter record (R5), fixed for an instance, never written (R24, R25). The defaults are the spec's own:
R121 (`RK_BYTES`, `KEYMIX`), R124 (`STAGE_ORDER`); `LAST_ROUND_DIFFUSES` has none (R126). -/
structure Alg where
  /-- `BLOCK_SIZE` -/
  blockSize : Nat
  /-- `KEY_SIZES`, in ascending order -/
  keySizes : List Nat
  /-- `ROUND_COUNT`, written `N` -/
  roundCount : Nat
  /-- `RK_BYTES` -/
  rkBytes : Nat := blockSize
  /-- `SBOX_TABLE` -/
  sbox : Bytes
  /-- `SBOX_INV_TABLE` -/
  sboxInv : Bytes
  sboxStrategy : SboxStrategy
  /-- `KEYMIX`: input `block || round key` -/
  keymix : List Layer := xorKeymix blockSize
  /-- `KEYMIX_INV`: input `block || round key` -/
  keymixInv : List Layer := xorKeymix blockSize
  /-- `DIFFUSE` -/
  diffuse : List Layer
  /-- `DIFFUSE_INV` -/
  diffuseInv : List Layer
  stageOrder : StageOrder := .ksd
  lastRoundDiffuses : Bool
  /-- `KS_INIT` and `KS_STEP`: one rule per member of `KEY_SIZES`, in that order -/
  expansions : List Expansion
deriving DecidableEq, Repr

/-- `LAT(Alg, OPCODE, LEN, STATE)` (R271, U12, D27): a function of public values and nothing else, its values not specified. -/
opaque Config.latency : Alg → BitVec 8 → BitVec 16 → Bool → Nat

/-- The 16-bit LEN field of a response whose payload of the given length does not fit it (only an INFO record with more than
32763 key sizes): the spec states no value (log entry 6, DESIGN CHOICE: a free value). -/
opaque Config.oversizeLen : Nat → BitVec 16

end Sys2Proof
end

