-- ==== Sys2Proof/Syntax.lean ====
section
/-! DEFINITION. The commands of the opcode table (R63) and the command as the channel carries it (R60). -/

namespace Sys2Proof

/-- One command, one constructor per row of the opcode table. `LEN` is the length of the payload (R60, R65). -/
inductive Instr where
  /-- KEYLOAD, format K: the payload is the Key (R141) -/
  | keyload (key : Bytes)
  /-- ENCRYPT, format B: the payload is the plaintext Block (R142) -/
  | encrypt (block : Bytes)
  /-- DECRYPT, format B: the payload is the ciphertext Block (R143) -/
  | decrypt (block : Bytes)
  /-- ZEROIZE, format N (R170) -/
  | zeroize
  /-- INFO, format N (R175) -/
  | info
deriving DecidableEq, Repr

/-- A command on the channel: the pair `(H, P)` (00_scope.md section 4). A command is complete when `len(P) = H[31:16]`. -/
structure Command where
  word : Word
  payload : Bytes
deriving DecidableEq, Repr

/-- One move of the host (R48): everything the outside world can do to the engine. -/
inductive HostMove where
  /-- offer a command word with payload bytes (R60) -/
  | command (c : Command)
  /-- send further payload bytes of the command already offered (R60, U22) -/
  | payload (bs : Bytes)
  /-- take the response (R260, U23) -/
  | take
  /-- do nothing (the moment between a response and the next move) -/
  | wait
  /-- assert the reset input `rst` (R250) -/
  | reset
deriving DecidableEq, Repr

end Sys2Proof
end

