-- ==== Sys2Proof/WellFormed.lean ====
section
/-! DEFINITION. Well-formed commands: the payload length fits the 16-bit LEN field (R61, R65). -/

namespace Sys2Proof

/-- A length the LEN field can carry: 0..65535 (R61). -/
def lenFits (n : Nat) : Bool := decide (n < 65536)

/-- Any LEN is a well-formed KEYLOAD, ENCRYPT or DECRYPT (R61, R67); ZEROIZE and INFO have no payload. -/
def Instr.wellFormed : Instr → Bool
  | .keyload key => lenFits key.length
  | .encrypt block => lenFits block.length
  | .decrypt block => lenFits block.length
  | .zeroize => true
  | .info => true

end Sys2Proof
end

