-- ==== Sys2Proof/Decode.lean ====
section
/-! DEFINITION. The decoder of command words (R61-R67), total, rejecting by name, and the encoder. -/

namespace Sys2Proof

/-- `OPCODE` = H[7:0] (R61). -/
def Command.opcode (c : Command) : BitVec 8 := c.word.extractLsb' 0 8

/-- `RSVD` = H[15:8], must be 0x00 (R61). -/
def Command.rsvd (c : Command) : BitVec 8 := c.word.extractLsb' 8 8

/-- `LEN` = H[31:16], unsigned, neither extended nor scaled (R61, R65). -/
def Command.len (c : Command) : BitVec 16 := c.word.extractLsb' 16 16

/-- `DIR` = OPCODE[0]: the forward or the inverse pass (R64). -/
def Command.dir (c : Command) : Bool := c.opcode.getLsbD 0

/-- All payload bytes are there: `len(P) = H[31:16]` (R60). -/
def Command.complete (c : Command) : Bool := decide (c.payload.length = c.len.toNat)

/-- Why a command word is illegal (R66). -/
inductive Illegal where
  /-- (a) `RSVD` ≠ 0x00 -/
  | reservedBits
  /-- (b) `OPCODE` is 0x00 or in 0x06..0xFF -/
  | reservedOpcode
  /-- (c) ZEROIZE or INFO with `LEN` ≠ 0 -/
  | lengthOnFormatN
deriving DecidableEq, Repr

/-- The opcode map (R63): the block commands share OPCODE[7:1] and differ in DIR (R64). The payload is the operand as it is,
never truncated, never padded (R65). A size the command does not accept is no illegal encoding (R67). -/
def decode (c : Command) : Except Illegal Instr :=
  if c.rsvd ≠ 0 then .error .reservedBits
  else if c.opcode = 0x01#8 then .ok (.keyload c.payload)
  else if c.opcode.extractLsb' 1 7 = 0x01#7 then
    .ok (if c.dir then .decrypt c.payload else .encrypt c.payload)
  else if c.opcode = 0x04#8 then
    if c.len = 0 then .ok .zeroize else .error .lengthOnFormatN
  else if c.opcode = 0x05#8 then
    if c.len = 0 then .ok .info else .error .lengthOnFormatN
  else .error .reservedOpcode

/-- The command word with the given LEN and OPCODE, RSVD = 0 (R61). -/
def commandWord (len : Nat) (opcode : BitVec 8) : Word :=
  BitVec.ofNat 16 len ++ 0x00#8 ++ opcode

/-- The command of an instruction, written from the opcode map and the formats (R61, R63). -/
def encode : Instr → Command
  | .keyload key => ⟨commandWord key.length 0x01, key⟩
  | .encrypt block => ⟨commandWord block.length 0x02, block⟩
  | .decrypt block => ⟨commandWord block.length 0x03, block⟩
  | .zeroize => ⟨commandWord 0 0x04, []⟩
  | .info => ⟨commandWord 0 0x05, []⟩

/-- The command whose bits are `w`, the command word in bits 31..0 and payload byte `j` in bits 8j+39..8j+32; every bit from
`nbits` on is 0, so a payload the table gives no bits is zeros. -/
def commandOfBits (nbits w : Nat) : Command :=
  let v := w % 2 ^ nbits
  let word := BitVec.ofNat 32 v
  ⟨word, (List.range (word.extractLsb' 16 16).toNat).map fun j => BitVec.ofNat 8 (v >>> (32 + 8 * j))⟩

/-- What the decoder reads from an instruction whose bits are `w`, numbered as the opcode table numbers them. -/
def decodeTableWord (nbits w : Nat) : Option Instr :=
  match decode (commandOfBits nbits w) with
  | .ok i => some i
  | .error _ => none

end Sys2Proof
end

