-- ==== Sys2Proof/Machine/Bytes.lean ====
section
/-! DEFINITION. Byte-vector helpers: the masked equality (R82), byte order of integers (R44), rotation of a vector (R203). -/

namespace Sys2Proof.Machine

/-- `eqmask8` (R82): 0xFF when the bytes are equal, else 0x00, with no branch: the borrow of a 9-bit subtraction, negated. -/
def eqmask8 (a b : Byte) : Byte :=
  let d := a ^^^ b
  let z := (d.setWidth 9 - 1#9).getLsbD 8
  0#8 - (BitVec.ofBool z).setWidth 8

/-- A 16-bit field, low byte first (R44, R176). -/
def le16 (n : Nat) : Bytes := [BitVec.ofNat 8 n, BitVec.ofNat 8 (n / 256)]

/-- The bytes as one integer, byte 0 least significant: byte `i` is bits `8i+7..8i`. -/
def ofLittleEndian : Bytes → Nat
  | [] => 0
  | b :: bs => b.toNat + 256 * ofLittleEndian bs

/-- The vector as one integer, byte 0 most significant (R203). -/
def ofBigEndian (v : Bytes) : Nat := v.foldl (fun acc b => acc * 256 + b.toNat) 0

/-- The `n`-byte vector of an integer, byte 0 most significant (R203). -/
def toBigEndian (n v : Nat) : Bytes := (List.range n).map fun i => BitVec.ofNat 8 (v >>> (8 * (n - 1 - i)))

/-- The vector as one big-endian integer rotated left by `n` bits: `rotl64(v, n)` for 8 bytes (R203). -/
def rotlBytes (n : Nat) (v : Bytes) : Bytes :=
  toBigEndian v.length ((BitVec.ofNat (8 * v.length) (ofBigEndian v)).rotateLeft n).toNat

/-- The vector as one big-endian integer rotated right by `n` bits: `rotr64(v, n)` for 8 bytes (R204). -/
def rotrBytes (n : Nat) (v : Bytes) : Bytes :=
  toBigEndian v.length ((BitVec.ofNat (8 * v.length) (ofBigEndian v)).rotateRight n).toNat

/-- Byte `i` of a vector. -/
def byteAt (v : Bytes) (i : Nat) : Byte := v.getD i 0

/-- The width of the key buffer `KB`: the longest key of the instance (R26, log entry 5). -/
def keyBufferBytes (a : Alg) : Nat := a.keySizes.foldl max 0

/-- A zeroised round-key register file: `N` registers of `RK_BYTES` bytes 0x00 (R22, R30, R170). -/
def zeroKeys (a : Alg) : List Bytes := List.replicate a.roundCount (zeros a.rkBytes)

end Sys2Proof.Machine
end

