-- ==== Sys2Proof/Machine/Circuit.lean ====
section
/-! DEFINITION. What the fixed byte networks of `Alg` compute (R121, R123, R130), their widths, and the checks on them. -/

namespace Sys2Proof

/-- The value of a byte expression on the input vector `v` (R11: unsigned bytes, wrapping). -/
def ByteExpr.eval (v : Bytes) : ByteExpr → Byte
  | .input i => Machine.byteAt v i
  | .const b => b
  | .not a => ~~~(a.eval v)
  | .xor a b => a.eval v ^^^ b.eval v
  | .and a b => a.eval v &&& b.eval v
  | .or a b => a.eval v ||| b.eval v
  | .add a b => a.eval v + b.eval v
  | .sub a b => a.eval v - b.eval v
  | .mul a b => a.eval v * b.eval v
  | .rotl n a => (a.eval v).rotateLeft n
  | .eqmask a b => Machine.eqmask8 (a.eval v) (b.eval v)

/-- Every input the expression names exists in a vector of `w` bytes. -/
def ByteExpr.inRange (w : Nat) : ByteExpr → Bool
  | .input i => decide (i < w)
  | .const _ => true
  | .not a => a.inRange w
  | .xor a b => a.inRange w && b.inRange w
  | .and a b => a.inRange w && b.inRange w
  | .or a b => a.inRange w && b.inRange w
  | .add a b => a.inRange w && b.inRange w
  | .sub a b => a.inRange w && b.inRange w
  | .mul a b => a.inRange w && b.inRange w
  | .rotl _ a => a.inRange w
  | .eqmask a b => a.inRange w && b.inRange w

/-- What one layer computes. -/
def Layer.eval : Layer → Bytes → Bytes
  | .bytes outs, v => outs.map (·.eval v)
  | .rotl n, v => Machine.rotlBytes n v
  | .rotr n, v => Machine.rotrBytes n v

/-- A layer's output width on a `w`-byte vector; none where it names an input that is not there. -/
def Layer.width (w : Nat) : Layer → Option Nat
  | .bytes outs => if outs.all (·.inRange w) then some outs.length else none
  | .rotl _ => some w
  | .rotr _ => some w

/-- The layers in order, the output of each the input of the next. -/
def evalLayers (ls : List Layer) (v : Bytes) : Bytes := ls.foldl (fun x l => l.eval x) v

/-- The output width of a network on a `w`-byte vector. -/
def widthLayers : List Layer → Nat → Option Nat
  | [], w => some w
  | l :: ls, w =>
    match l.width w with
    | some w' => widthLayers ls w'
    | none => none

/-- The output width of one layer of the key expansion. -/
def KsLayer.width (w : Nat) : KsLayer → Option Nat
  | .net l => l.width w
  | .subst lo n => if lo + n ≤ w then some w else none

/-- The output width of a circuit of the key expansion. -/
def widthKsLayers : List KsLayer → Nat → Option Nat
  | [], w => some w
  | l :: ls, w =>
    match l.width w with
    | some w' => widthKsLayers ls w'
    | none => none

/-- The widths of the expansion state, from `w` on, through the given steps with round keys of `rk` bytes; none where a step's
circuit has no width or gives less than a round key. -/
def stateWidths (rk : Nat) : List (List KsLayer) → Nat → Option (List Nat)
  | [], w => some [w]
  | c :: cs, w =>
    match widthKsLayers c w with
    | some o => if rk ≤ o then (stateWidths rk cs (o - rk)).map (w :: ·) else none
    | none => none

/-- The widths of the expansion state, the first one on, for keys of the rule's length. -/
def Expansion.stateWidths (rk : Nat) (e : Expansion) : Option (List Nat) :=
  match widthKsLayers e.init e.keyBytes with
  | some w => Sys2Proof.stateWidths rk e.steps w
  | none => none

namespace Machine

/-- The width of the expansion-state register `KS`: the widest state of any expansion of the instance (R26, log entry 5). -/
def expansionBufferBytes (a : Alg) : Nat :=
  (a.expansions.flatMap fun e => (e.stateWidths a.rkBytes).getD []).foldl max 0

end Machine

end Sys2Proof
end

