-- ==== Sys2Proof/Machine/Trace.lean ====
section
/-! DEFINITION. The access trace (R88): events, and a computation together with the events it produced. -/

namespace Sys2Proof.Machine

/-- The read-only table spaces (R40). -/
inductive Space where
  | sbox
  | sboxInv
deriving DecidableEq, Repr

/-- The named places of the pseudocode at which a control decision is taken (R88, R146). -/
inductive Site where
  /-- `if L not in KEY_SIZES` (R141) -/
  | keySize
  /-- `if H[31:16] != BLOCK_SIZE` (R142, R143) -/
  | blockSize
  /-- `if STATE = …` (R141-R143) -/
  | engineState
  /-- loop bound of `substitute`'s 256-step loop (R81) -/
  | scanLoop
  /-- loop bound of SubBytes (R85) -/
  | subBytesLoop
  /-- loop bound of `derive` (R102) -/
  | deriveLoop
  /-- KS_INIT's choice of the expansion by the public key length (R105, V72) -/
  | ksInitLength
  /-- loop bound of the writes of `RK` (R141, R170) -/
  | rkWriteLoop
  /-- loop bound of `encrypt_rounds` and `decrypt_rounds` (R144, R145) -/
  | roundLoop
  /-- loop bound of the STAGE_ORDER loop (R124, R125) -/
  | stageLoop
  /-- `if s = K` (R124) -/
  | stageIsK
  /-- `if s = S` (R124) -/
  | stageIsS
  /-- `if s = D` (R124) -/
  | stageIsD
  /-- `last and not LAST_ROUND_DIFFUSES` (R126) -/
  | lastRound
deriving DecidableEq, Repr

/-- An event of the access trace (R88). -/
inductive Event where
  /-- `(SBOX, i)`, `(SBOXINV, i)`: a table read at index `i` -/
  | table (sp : Space) (i : Nat)
  /-- `(RK, i, rd)` -/
  | rkRead (i : Nat)
  /-- `(RK, i, wr)` -/
  | rkWrite (i : Nat)
  /-- `(branch, site, taken)` -/
  | branch (site : Site) (taken : Bool)
deriving DecidableEq, Repr

/-- A table read. -/
def Event.isTable : Event → Bool
  | .table _ _ => true
  | _ => false

/-- A read or write of a round-key register. -/
def Event.isRk : Event → Bool
  | .rkRead _ => true
  | .rkWrite _ => true
  | _ => false

/-- A value and the events its computation produced, in order. -/
structure Traced (α : Type) where
  val : α
  trace : List Event
deriving DecidableEq, Repr

/-- A value computed without any event. -/
def Traced.pure {α : Type} (a : α) : Traced α := ⟨a, []⟩

/-- First `x`, then what `f` does with its value: the events of `x` come first. -/
def Traced.bind {α β : Type} (x : Traced α) (f : α → Traced β) : Traced β :=
  match x with
  | ⟨a, t⟩ =>
    match f a with
    | ⟨b, u⟩ => ⟨b, t ++ u⟩

/-- Apply an event-free function to the value. -/
def Traced.map {α β : Type} (f : α → β) (x : Traced α) : Traced β := ⟨f x.val, x.trace⟩

/-- Put events before those of `x`. -/
def Traced.after {α : Type} (es : List Event) (x : Traced α) : Traced α := ⟨x.val, es ++ x.trace⟩

/-- Put events behind those of `x`. -/
def Traced.andThen {α : Type} (x : Traced α) (es : List Event) : Traced α := ⟨x.val, x.trace ++ es⟩

end Sys2Proof.Machine
end

