-- ==== Sys2Proof/Machine/Sbox.lean ====
section
/-! DEFINITION. ConstantTimeSBox (41_constant_time_sbox.md): `substitute`, `substitute_inv` and their vector forms, with the
events they produce. No table is ever read at a secret index (R87). -/

namespace Sys2Proof.Machine

/-- The table of a space (R40). -/
def table (a : Alg) : Space → Bytes
  | .sbox => a.sbox
  | .sboxInv => a.sboxInv

/-- The loop of R81 from index `i` on, over the table entries from `i` on: each turn reads `MemRead(space:i, 1)` at the public
loop counter and ORs in the entry under the mask `eqmask8(i, x)`. -/
def scanTable (sp : Space) (x : Byte) : Nat → Bytes → Byte → Traced Byte
  | _, [], acc => ⟨acc, [.branch .scanLoop false]⟩
  | i, t :: ts, acc =>
    (scanTable sp x (i + 1) ts (acc ||| (t &&& eqmask8 (BitVec.ofNat 8 i) x))).after
      [.branch .scanLoop true, .table sp i]

/-- The formula circuit of a strategy for a space. -/
def formulaOf (fwd inv : ByteExpr) : Space → ByteExpr
  | .sbox => fwd
  | .sboxInv => inv

/-- Substitution through a space: the full scan (R81) or the formula, which reads nothing (R83). -/
def substituteVia (a : Alg) (sp : Space) (x : Byte) : Traced Byte :=
  match a.sboxStrategy with
  | .fullScan => scanTable sp x 0 (table a sp) 0x00
  | .formula fwd inv => ⟨(formulaOf fwd inv sp).eval [x], []⟩

/-- `substitute(x)` (R80). -/
def substitute (a : Alg) (x : Byte) : Traced Byte := substituteVia a .sbox x

/-- `substitute_inv(y)` (R84). -/
def substituteInv (a : Alg) (y : Byte) : Traced Byte := substituteVia a .sboxInv y

/-- A substitution applied to each element in ascending index (R85). -/
def substituteEach (f : Byte → Traced Byte) : Bytes → Traced Bytes
  | [] => ⟨[], [.branch .subBytesLoop false]⟩
  | x :: xs =>
    ((f x).bind fun y => (substituteEach f xs).map (y :: ·)).after [.branch .subBytesLoop true]

/-- `SubBytes(v)` (R85). -/
def subBytes (a : Alg) (v : Bytes) : Traced Bytes := substituteEach (substitute a) v

/-- `SubBytesInv(v)` (R85). -/
def subBytesInv (a : Alg) (v : Bytes) : Traced Bytes := substituteEach (substituteInv a) v

/-- `SubWord(w)`: a word is substituted byte by byte (R86). -/
def subWord (a : Alg) (w : Bytes) : Traced Bytes := subBytes a w

end Sys2Proof.Machine
end

