-- ==== Sys2Proof/Machine/KeySchedule.lean ====
section
/-! DEFINITION. KeySchedule (42_key_schedule.md): `KS_INIT`, `KS_STEP` and `derive`. -/

namespace Sys2Proof.Machine

/-- One layer of the key expansion (R105): a fixed network, or `SubWord` of the `n` bytes from `lo` on. -/
def evalKsLayer (a : Alg) : KsLayer → Bytes → Traced Bytes
  | .net l, v => ⟨l.eval v, []⟩
  | .subst lo n, v =>
    (subWord a ((v.drop lo).take n)).map fun w => v.take lo ++ w ++ v.drop (lo + n)

/-- The layers of an expansion circuit in order. -/
def evalKsLayers (a : Alg) : List KsLayer → Bytes → Traced Bytes
  | [], v => .pure v
  | l :: ls, v => (evalKsLayer a l v).bind (evalKsLayers a ls)

/-- The expansion rule for the public key length `L`, which R105 lets the expansion branch on. The choice is made once, in
`KS_INIT` (V72: REF8's two key lengths differ in its branch alone). -/
def selectExpansion (L : Nat) : List Expansion → Traced Expansion
  | [] => .pure ⟨L, [], []⟩
  | e :: rest =>
    if L = e.keyBytes then ⟨e, [.branch .ksInitLength true]⟩
    else (selectExpansion L rest).after [.branch .ksInitLength false]

/-- `KS_INIT(key)` (R5, R102). -/
def ksInit (a : Alg) (key : Bytes) : Traced KsState :=
  (selectExpansion key.length a.expansions).bind fun e =>
    (evalKsLayers a e.init key).map fun v => ⟨e.steps, v⟩

/-- `KS_STEP(i, ks)` (R5, R102): the round key and the new expansion state. The circuit depends on the index and, through the
state, on the key length (R105). -/
def ksStep (a : Alg) (i : Nat) (ks : KsState) : Traced (Bytes × KsState) :=
  (evalKsLayers a (ks.steps.getD i []) ks.bytes).map fun v => (v.take a.rkBytes, ⟨ks.steps, v.drop a.rkBytes⟩)

/-- The loop of `derive` (R102): `n` further iterations from index `i` on, one round key each; the keys in order and the final
expansion state. -/
def expandLoop (a : Alg) : Nat → Nat → KsState → Traced (List Bytes × KsState)
  | 0, _, ks => ⟨([], ks), [.branch .deriveLoop false]⟩
  | n + 1, i, ks =>
    ((ksStep a i ks).bind fun r => (expandLoop a n (i + 1) r.2).map fun q => (r.1 :: q.1, q.2)).after
      [.branch .deriveLoop true]

/-- The expansion of a key whose size was checked (R102): exactly `N` iterations. -/
def expand (a : Alg) (key : Bytes) : Traced (List Bytes × KsState) :=
  (ksInit a key).bind (expandLoop a a.roundCount 0)

/-- The one key-size check (R101): a test of the length alone. -/
def validKeySize (a : Alg) (len : Nat) : Bool := decide (len ∈ a.keySizes)

/-- `derive(key)` (R100, R102): none stands for InvalidKeySize, raised before any byte is inspected (R101). -/
def derive (a : Alg) (key : Bytes) : Traced (Option (List Bytes)) :=
  if validKeySize a key.length then
    ((expand a key).map fun q => some q.1).after [.branch .keySize false]
  else ⟨none, [.branch .keySize true]⟩

end Sys2Proof.Machine
end

