-- ==== Sys2Proof/Machine/RoundFunction.lean ====
section
/-! DEFINITION. RoundFunction (43_round_function.md): the stages, `forward` and `inverse`. -/

namespace Sys2Proof.Machine

/-- `KEYMIX(x, k)` (R121). -/
def keymix (a : Alg) (x k : Bytes) : Bytes := evalLayers a.keymix (x ++ k)

/-- `KEYMIX_INV(x, k)` (R121). -/
def keymixInv (a : Alg) (x k : Bytes) : Bytes := evalLayers a.keymixInv (x ++ k)

/-- `DIFFUSE(x)` (R123). -/
def diffuse (a : Alg) (x : Bytes) : Bytes := evalLayers a.diffuse x

/-- `DIFFUSE_INV(x)` (R123). -/
def diffuseInv (a : Alg) (x : Bytes) : Bytes := evalLayers a.diffuseInv x

/-- The stages of a round, first to third (R124). -/
def stages : StageOrder → List Stage
  | .ksd => [.K, .S, .D]
  | .kds => [.K, .D, .S]
  | .skd => [.S, .K, .D]
  | .sdk => [.S, .D, .K]
  | .dks => [.D, .K, .S]
  | .dsk => [.D, .S, .K]

/-- The last-round test (R126): stage D is omitted exactly when this holds. -/
def omitsDiffusion (a : Alg) (last : Bool) : Bool := last && !a.lastRoundDiffuses

/-- The event of the last-round test (R88, R126). -/
def lastRoundEvent (a : Alg) (last : Bool) : Event := .branch .lastRound (omitsDiffusion a last)

/-- One turn of `forward`'s loop: the tests `s = K`, `s = S`, `s = D` in that order, each stage where its test stands (R124). -/
def stageForward (a : Alg) (k : Bytes) (last : Bool) (x : Bytes) : Stage → Traced Bytes
  | .K => ⟨keymix a x k, [.branch .stageIsK true, .branch .stageIsS false, .branch .stageIsD false]⟩
  | .S =>
    ((subBytes a x).after [.branch .stageIsK false, .branch .stageIsS true]).andThen [.branch .stageIsD false]
  | .D =>
    ⟨if omitsDiffusion a last then x else diffuse a x,
      [.branch .stageIsK false, .branch .stageIsS false, .branch .stageIsD true, lastRoundEvent a last]⟩

/-- One turn of `inverse`'s loop: the tests `s = D`, `s = S`, `s = K` in that order (R125). -/
def stageInverse (a : Alg) (k : Bytes) (last : Bool) (x : Bytes) : Stage → Traced Bytes
  | .D =>
    ⟨if omitsDiffusion a last then x else diffuseInv a x,
      [.branch .stageIsD true, lastRoundEvent a last, .branch .stageIsS false, .branch .stageIsK false]⟩
  | .S =>
    ((subBytesInv a x).after [.branch .stageIsD false, .branch .stageIsS true]).andThen [.branch .stageIsK false]
  | .K => ⟨keymixInv a x k, [.branch .stageIsD false, .branch .stageIsS false, .branch .stageIsK true]⟩

/-- The stage loop: each stage applied to the output of the one before. -/
def runStages (f : Bytes → Stage → Traced Bytes) : List Stage → Bytes → Traced Bytes
  | [], x => ⟨x, [.branch .stageLoop false]⟩
  | s :: ss, x => ((f x s).bind (runStages f ss)).after [.branch .stageLoop true]

/-- `forward(b, k, last)` (R124). -/
def forward (a : Alg) (b k : Bytes) (last : Bool) : Traced Bytes :=
  runStages (stageForward a k last) (stages a.stageOrder) b

/-- `inverse(c, k, last)`: the inverse stages in reverse order (R125). -/
def inverse (a : Alg) (c k : Bytes) (last : Bool) : Traced Bytes :=
  runStages (stageInverse a k last) (stages a.stageOrder).reverse c

end Sys2Proof.Machine
end

