-- ==== Sys2Proof/Machine/Conformance.lean ====
section
/-! DEFINITION. Which parameter records are BCCORE's: R6(a) to (f), the tables of R5 and R7 and the formula clause of R83 as the check
every step makes; R7's laws over all blocks as hypotheses (R6: "the model may take them as hypotheses on `Alg`"). -/

namespace Sys2Proof.Machine

/-- 1..65535 (R6). -/
def sizeOk (n : Nat) : Bool := decide (1 ≤ n ∧ n ≤ 65535)

/-- The members of `KEY_SIZES` in strictly ascending order: the list is the set. -/
def ascending : List Nat → Bool
  | a :: b :: rest => decide (a < b) && ascending (b :: rest)
  | _ => true

/-- All 256 bytes in order. -/
def allBytes : Bytes := (List.range 256).map (BitVec.ofNat 8)

/-- Entries `i` on of a table, given as `ys`, are sent back to their indices by the table whose little-endian integer is `inv`. -/
def invertsFrom (inv : Nat) : Nat → Bytes → Bool
  | _, [] => true
  | i, y :: ys => decide (inv / 256 ^ y.toNat % 256 = i) && invertsFrom inv (i + 1) ys

/-- The two tables have 256 entries (R5) and the second inverts the first (R7), so that the first is a bijection on bytes; U8 refuses
any other. The inverse table is read as one integer, which is cheap to evaluate; `tablesOk_iff` says the same entry by entry. -/
def tablesOk (a : Alg) : Bool :=
  decide (a.sbox.length = 256) && decide (a.sboxInv.length = 256) && invertsFrom (ofLittleEndian a.sboxInv) 0 a.sbox

/-- A formula names no input but `x`, and its value equals the table for all 256 inputs (R83, R84). -/
def strategyOk (a : Alg) : Bool :=
  match a.sboxStrategy with
  | .fullScan => true
  | .formula fwd inv =>
    fwd.inRange 1 && inv.inRange 1 &&
      decide (allBytes.map (fun x => fwd.eval [x]) = a.sbox) &&
      decide (allBytes.map (fun x => inv.eval [x]) = a.sboxInv)

/-- `KEYMIX`, `KEYMIX_INV`, `DIFFUSE`, `DIFFUSE_INV` return exactly `BLOCK_SIZE` bytes (R6(f)). -/
def roundWidthsOk (a : Alg) : Bool :=
  decide (widthLayers a.keymix (a.blockSize + a.rkBytes) = some a.blockSize) &&
    decide (widthLayers a.keymixInv (a.blockSize + a.rkBytes) = some a.blockSize) &&
    decide (widthLayers a.diffuse a.blockSize = some a.blockSize) &&
    decide (widthLayers a.diffuseInv a.blockSize = some a.blockSize)

/-- There is a rule for each length of `KEY_SIZES`; `KS_INIT` is total on the keys of that length, and `KS_STEP` is there for each of
the `N` iterations, total on the state that reaches it, and returns a round key of exactly `RK_BYTES` bytes and a state (R6(e)). -/
def expansionOk (a : Alg) : Bool :=
  decide (a.expansions.map Expansion.keyBytes = a.keySizes) &&
    a.expansions.all (fun e => decide (e.steps.length = a.roundCount) && (e.stateWidths a.rkBytes).isSome)

/-- R6(a) to (f), the table law of R7 and the formula clause of R83. A record that fails is not an `Alg` of BCCORE (U8, U27:
`refuse`). -/
def algOk (a : Alg) : Bool :=
  sizeOk a.blockSize && decide (a.keySizes ≠ []) && a.keySizes.all sizeOk && ascending a.keySizes &&
    sizeOk a.roundCount && decide (1 ≤ a.rkBytes ∧ a.rkBytes ≤ a.blockSize) &&
    roundWidthsOk a && expansionOk a && tablesOk a && strategyOk a

/-- `KEYMIX_INV(KEYMIX(b,k),k) = b` for every block and round key (R7). -/
def KeymixInverts (a : Alg) : Prop :=
  ∀ b k : Bytes, b.length = a.blockSize → k.length = a.rkBytes → keymixInv a (keymix a b k) k = b

/-- `DIFFUSE_INV(DIFFUSE(b)) = b` for every block (R7). -/
def DiffuseInverts (a : Alg) : Prop :=
  ∀ b : Bytes, b.length = a.blockSize → diffuseInv a (diffuse a b) = b

/-- A conforming parameter record: what every step checks, and R7's two laws over all blocks, which none can (log entry 7). -/
def Conforming (a : Alg) : Prop := algOk a = true ∧ KeymixInverts a ∧ DiffuseInverts a

end Sys2Proof.Machine
end

