-- ==== Sys2Proof/Machine/Reference.lean ====
section
/-! DEFINITION. The spec's reference parameter records REF16 and REF8 (46_reference_parameter_sets.md). They are the spec's own
test fixtures (R185, D2), no published cipher. -/

namespace Sys2Proof.Machine

/-- `SREF` (R186): row = high nibble of the index. -/
def sref : Bytes :=
  [0x63, 0x7b, 0x33, 0xcb, 0x42, 0xda, 0x11, 0x28, 0x27, 0x3e, 0xf5, 0x8c, 0x02, 0x99, 0xd7, 0xed] ++
  [0xe3, 0xf9, 0xb7, 0x4c, 0xc2, 0x5f, 0x95, 0xaa, 0xa7, 0xbc, 0x70, 0x0d, 0x82, 0x1e, 0x52, 0x6e] ++
  [0x62, 0x7e, 0x32, 0xce, 0x41, 0xdd, 0x10, 0x2b, 0x26, 0x39, 0xf4, 0x8f, 0x01, 0x9c, 0xd6, 0xe8] ++
  [0xe2, 0xfc, 0xb6, 0x4f, 0xc1, 0x5a, 0x94, 0xad, 0xa6, 0xbf, 0x77, 0x08, 0x81, 0x19, 0x51, 0x69] ++
  [0x61, 0x79, 0x31, 0xc9, 0x40, 0xd8, 0x17, 0x2e, 0x25, 0x3c, 0xf3, 0x8a, 0x00, 0x9f, 0xd5, 0xeb] ++
  [0xe1, 0xff, 0xb5, 0x4a, 0xc0, 0x5d, 0x93, 0xa8, 0xa5, 0xba, 0x76, 0x0b, 0x80, 0x1c, 0x50, 0x6c] ++
  [0x60, 0x7c, 0x30, 0xcc, 0x47, 0xdb, 0x16, 0x29, 0x24, 0x3f, 0xf2, 0x8d, 0x07, 0x9a, 0xd4, 0xee] ++
  [0xe0, 0xfa, 0xb4, 0x4d, 0xc7, 0x58, 0x92, 0xab, 0xa4, 0xbd, 0x75, 0x0e, 0x87, 0x1f, 0x57, 0x6f] ++
  [0x67, 0x7f, 0x37, 0xcf, 0x46, 0xde, 0x15, 0x2c, 0x23, 0x3a, 0xf1, 0x88, 0x06, 0x9d, 0xd3, 0xe9] ++
  [0xe7, 0xfd, 0xb3, 0x48, 0xc6, 0x5b, 0x91, 0xae, 0xa3, 0xb8, 0x74, 0x09, 0x86, 0x1a, 0x56, 0x6a] ++
  [0x66, 0x7a, 0x36, 0xca, 0x45, 0xd9, 0x14, 0x2f, 0x22, 0x3d, 0xf0, 0x8b, 0x05, 0x98, 0xd2, 0xec] ++
  [0xe6, 0xf8, 0xb2, 0x4b, 0xc5, 0x5e, 0x90, 0xa9, 0xa2, 0xbb, 0x73, 0x0c, 0x85, 0x1d, 0x55, 0x6d] ++
  [0x65, 0x7d, 0x35, 0xcd, 0x44, 0xdc, 0x13, 0x2a, 0x21, 0x38, 0xf7, 0x8e, 0x04, 0x9b, 0xd1, 0xef] ++
  [0xe5, 0xfb, 0xb1, 0x4e, 0xc4, 0x59, 0x97, 0xac, 0xa1, 0xbe, 0x72, 0x0f, 0x84, 0x18, 0x54, 0x68] ++
  [0x64, 0x78, 0x34, 0xc8, 0x43, 0xdf, 0x12, 0x2d, 0x20, 0x3b, 0xf6, 0x89, 0x03, 0x9e, 0xd0, 0xea] ++
  [0xe4, 0xfe, 0xb0, 0x49, 0xc3, 0x5c, 0x96, 0xaf, 0xa0, 0xb9, 0x71, 0x0a, 0x83, 0x1b, 0x53, 0x6b]

/-- `SREF_INV` (R187): row = high nibble of the index. -/
def srefInv : Bytes :=
  [0x4c, 0x2c, 0x0c, 0xec, 0xcc, 0xac, 0x8c, 0x6c, 0x3b, 0x9b, 0xfb, 0x5b, 0xbb, 0x1b, 0x7b, 0xdb] ++
  [0x26, 0x06, 0xe6, 0xc6, 0xa6, 0x86, 0x66, 0x46, 0xdd, 0x3d, 0x9d, 0xfd, 0x5d, 0xbd, 0x1d, 0x7d] ++
  [0xe8, 0xc8, 0xa8, 0x88, 0x68, 0x48, 0x28, 0x08, 0x07, 0x67, 0xc7, 0x27, 0x87, 0xe7, 0x47, 0xa7] ++
  [0x62, 0x42, 0x22, 0x02, 0xe2, 0xc2, 0xa2, 0x82, 0xc9, 0x29, 0x89, 0xe9, 0x49, 0xa9, 0x09, 0x69] ++
  [0x44, 0x24, 0x04, 0xe4, 0xc4, 0xa4, 0x84, 0x64, 0x93, 0xf3, 0x53, 0xb3, 0x13, 0x73, 0xd3, 0x33] ++
  [0x5e, 0x3e, 0x1e, 0xfe, 0xde, 0xbe, 0x9e, 0x7e, 0x75, 0xd5, 0x35, 0x95, 0xf5, 0x55, 0xb5, 0x15] ++
  [0x60, 0x40, 0x20, 0x00, 0xe0, 0xc0, 0xa0, 0x80, 0xdf, 0x3f, 0x9f, 0xff, 0x5f, 0xbf, 0x1f, 0x7f] ++
  [0x1a, 0xfa, 0xda, 0xba, 0x9a, 0x7a, 0x5a, 0x3a, 0xe1, 0x41, 0xa1, 0x01, 0x61, 0xc1, 0x21, 0x81] ++
  [0x5c, 0x3c, 0x1c, 0xfc, 0xdc, 0xbc, 0x9c, 0x7c, 0x8b, 0xeb, 0x4b, 0xab, 0x0b, 0x6b, 0xcb, 0x2b] ++
  [0xb6, 0x96, 0x76, 0x56, 0x36, 0x16, 0xf6, 0xd6, 0xad, 0x0d, 0x6d, 0xcd, 0x2d, 0x8d, 0xed, 0x4d] ++
  [0xf8, 0xd8, 0xb8, 0x98, 0x78, 0x58, 0x38, 0x18, 0x57, 0xb7, 0x17, 0x77, 0xd7, 0x37, 0x97, 0xf7] ++
  [0xf2, 0xd2, 0xb2, 0x92, 0x72, 0x52, 0x32, 0x12, 0x99, 0xf9, 0x59, 0xb9, 0x19, 0x79, 0xd9, 0x39] ++
  [0x54, 0x34, 0x14, 0xf4, 0xd4, 0xb4, 0x94, 0x74, 0xe3, 0x43, 0xa3, 0x03, 0x63, 0xc3, 0x23, 0x83] ++
  [0xee, 0xce, 0xae, 0x8e, 0x6e, 0x4e, 0x2e, 0x0e, 0x45, 0xa5, 0x05, 0x65, 0xc5, 0x25, 0x85, 0xe5] ++
  [0x70, 0x50, 0x30, 0x10, 0xf0, 0xd0, 0xb0, 0x90, 0x2f, 0x8f, 0xef, 0x4f, 0xaf, 0x0f, 0x6f, 0xcf] ++
  [0xaa, 0x8a, 0x6a, 0x4a, 0x2a, 0x0a, 0xea, 0xca, 0xb1, 0x11, 0x71, 0xd1, 0x31, 0x91, 0xf1, 0x51]

/-- The formula of `SREF` (R186): `rotl8((x * (2*x + 1)) mod 256, 3) xor 0x63`. -/
def srefFormula : ByteExpr :=
  .xor (.rotl 3 (.mul (.input 0) (.add (.mul (.const 2) (.input 0)) (.const 1)))) (.const 0x63)

/-- A fixed circuit that computes a table: the OR of all entries, each masked by `eqmask8(i, x)` (R187: for `SREF_INV` no
closed formula is given). -/
def tableCircuit : Nat → Bytes → ByteExpr
  | _, [] => .const 0
  | i, t :: ts => .or (.and (.const t) (.eqmask (.const (BitVec.ofNat 8 i)) (.input 0))) (tableCircuit (i + 1) ts)

/-- The FORMULA strategy for `SREF` (R83, R186, R187). -/
def srefFormulaStrategy : SboxStrategy := .formula srefFormula (tableCircuit 0 srefInv)

/-- Input bytes `lo` to `lo + n - 1`. -/
def inputs (lo n : Nat) : List ByteExpr := (List.range n).map fun i => .input (lo + i)

/-- REF16 `MIX4` (R192): in each group of four, every byte becomes `t xor` itself, `t` the xor of the four. -/
def mix4 : Layer :=
  .bytes ((List.range 16).map fun i =>
    let g := 4 * (i / 4)
    .xor (.xor (.xor (.xor (.input g) (.input (g + 1))) (.input (g + 2))) (.input (g + 3))) (.input i))

/-- REF16 `DIFFUSE` (R192): the byte permutation `p[i] <- x[(5*i) mod 16]`, then `MIX4`. -/
def diffuse16 : List Layer := [.bytes ((List.range 16).map fun i => .input (5 * i % 16)), mix4]

/-- REF16 `DIFFUSE_INV` (R193): `MIX4`, then `x[j] <- q[(13*j) mod 16]`. -/
def diffuseInv16 : List Layer := [mix4, .bytes ((List.range 16).map fun j => .input (13 * j % 16))]

/-- `RCON16` (R194). -/
def rcon16 : Bytes := [0x01, 0x02, 0x03, 0x04]

/-- REF16 `KS_STEP(i, w)` (R194): `w'[j] <- w[j] xor substitute(w[(j+1) mod 16]) xor (RCON16[i] if j = 0)`; the new state is
also the round key. -/
def ksStep16 (i : Nat) : List KsLayer :=
  [ .net (.bytes (inputs 0 16 ++ (List.range 16).map fun j => .input ((j + 1) % 16))),
    .subst 16 16,
    .net (.bytes ((List.range 16).map fun j =>
      .xor (.xor (.input j) (.input (16 + j))) (.const (if j = 0 then rcon16.getD i 0 else 0x00)))),
    .net (.bytes (inputs 0 16 ++ inputs 0 16)) ]

/-- REF16 (R190). The spec leaves `SBOX_STRATEGY` open for it (U2), so it is an argument. -/
def ref16 (strategy : SboxStrategy) : Alg where
  blockSize := 16
  keySizes := [16]
  roundCount := 4
  rkBytes := 16
  sbox := sref
  sboxInv := srefInv
  sboxStrategy := strategy
  keymix := xorKeymix 16
  keymixInv := xorKeymix 16
  diffuse := diffuse16
  diffuseInv := diffuseInv16
  stageOrder := .ksd
  lastRoundDiffuses := false
  expansions := [⟨16, [], (List.range 4).map ksStep16⟩]

/-- REF8 `KEYMIX` (R201): `x[i] +8 k[i]`. -/
def keymix8 : List Layer := [.bytes ((List.range 8).map fun i => .add (.input i) (.input (8 + i)))]

/-- REF8 `KEYMIX_INV` (R201): `x[i] -8 k[i]`. -/
def keymixInv8 : List Layer := [.bytes ((List.range 8).map fun i => .sub (.input i) (.input (8 + i)))]

/-- REF8 `KS_INIT(key)` (R205): `a` is the first eight bytes, `c` the last eight; the state is `a || c`. -/
def ksInit8 (len : Nat) : List KsLayer := [.net (.bytes (inputs 0 8 ++ inputs (len - 8) 8))]

/-- REF8 `KS_STEP(i, (a, c))` (R205): `a'[j] <- substitute(a[j] +8 c[(j+i) mod 8]) xor ((16*i + j) and 0xFF)`,
`c'[j] <- c[(j+1) mod 8]`; the round key is `a'`, the new state `a' || c'`. -/
def ksStep8 (i : Nat) : List KsLayer :=
  [ .net (.bytes (((List.range 8).map fun j => .add (.input j) (.input (8 + (j + i) % 8))) ++
      (List.range 8).map fun j => .input (8 + (j + 1) % 8))),
    .subst 0 8,
    .net (.bytes (((List.range 8).map fun j => .xor (.input j) (.const (BitVec.ofNat 8 (16 * i + j)))) ++ inputs 8 8)),
    .net (.bytes (inputs 0 8 ++ inputs 0 16)) ]

/-- REF8 (R200). The spec leaves `SBOX_STRATEGY` open for it (U2), so it is an argument. -/
def ref8 (strategy : SboxStrategy) : Alg where
  blockSize := 8
  keySizes := [8, 16]
  roundCount := 3
  rkBytes := 8
  sbox := sref
  sboxInv := srefInv
  sboxStrategy := strategy
  keymix := keymix8
  keymixInv := keymixInv8
  diffuse := [.rotl 11]
  diffuseInv := [.rotr 11]
  stageOrder := .sdk
  lastRoundDiffuses := true
  expansions := [⟨8, ksInit8 8, (List.range 3).map ksStep8⟩, ⟨16, ksInit8 16, (List.range 3).map ksStep8⟩]

/-- The parameter record of the instance the fixed name `State.reset` denotes: REF16 with the full scan (log entry 1, DESIGN
CHOICE). Every other `Alg` is reached through `State.resetOf`. -/
def resetAlg : Alg := ref16 .fullScan

end Sys2Proof.Machine
end

