-- ==== Sys2Proof/Machine/State.lean ====
section
/-! DEFINITION. The machine's state as plain data (10_state.md), its stop reasons, and the state after reset. -/

namespace Sys2Proof.Machine

/-- The values of `STATE` (R21). -/
inductive StateFlag where
  /-- UNINIT (0): no key is loaded; "the engine does not exist" -/
  | uninit
  /-- READY (1): after a successful KEYLOAD -/
  | ready
deriving DecidableEq, Repr

/-- The status of a response (R62, R220). -/
inductive Status where
  | ok
  | invalidKeySize
  | invalidBlockSize
  | invalidState
  | invalidCommand
deriving DecidableEq, Repr

/-- The four errors (R220); each is an error response, not a fault of the model (R228). -/
inductive Error where
  /-- 0x01, KEYLOAD only (R222) -/
  | keySize
  /-- 0x02, ENCRYPT and DECRYPT only (R223) -/
  | blockSize
  /-- 0x03, KEYLOAD in READY, ENCRYPT and DECRYPT in UNINIT (R224) -/
  | engineState
  /-- 0x04, an illegal command word (R225) -/
  | command
deriving DecidableEq, Repr

/-- A response: the pair `(S, Q)` (R60, R62). -/
structure Response where
  word : Word
  payload : Bytes
deriving DecidableEq, Repr

/-- Everything the spec gives the machine (10_state.md section 1), with the channels of R250 and the host's moves (R31). -/
structure State where
  /-- the instance's hardwired constants and read-only tables (R24, R25); no step changes them -/
  alg : Alg
  /-- `STATE` (R21) -/
  stateFlag : StateFlag
  /-- `RK[0..N-1]` (R22) -/
  rk : List Bytes
  /-- `KB`, transient: the key bytes of a KEYLOAD (R26) -/
  kb : Bytes
  /-- `KS`, transient: the expansion state of `derive` (R26) -/
  ks : Bytes
  /-- `WB`, transient: the working block of ENCRYPT and DECRYPT (R26) -/
  wb : Bytes
  /-- `r`, transient: the round counter (R27) -/
  r : Nat
  /-- the access trace of the last command: an output, emptied at the start of every command (R29, R88) -/
  trace : List Event
  /-- the command channel: the command offered and not yet accepted (R60, R260) -/
  cmd : Option Command
  /-- the response channel: the response issued and not yet taken (R62, R260) -/
  rsp : Option Response
  /-- the host's moves to come, oldest first (R31, R264): the model's own field -/
  host : List HostMove
deriving DecidableEq, Repr

/-- What stops the machine. -/
inductive Fault where
  /-- The host sent payload bytes beyond LEN, or payload bytes with no command on the channel. Raised by the channel operations
  of `step`, by no command's meaning. The host "must send exactly LEN payload bytes" (R260); a wrong count is "not expressible"
  (U22), so no behaviour is given. Safe. -/
  | payloadOverrun
deriving DecidableEq, Repr

/-- What the machine gives no meaning. -/
inductive Refusal where
  /-- An instruction without a meaning yet; raised by no arm of `exec`. Safe. -/
  | notModelled (mnemonic : String)
  /-- The instance's parameter record breaks R6(a) to (f), the table law of R7 or the formula clause of R83: not an `Alg` of BCCORE
  (U8, U27: `refuse`). Raised by `step` before anything else; no state reached from reset meets it. Safe. -/
  | nonconformingAlg
deriving DecidableEq, Repr

/-- The state right after reset of an instance whose constants are `a` (R30, R250), with nothing for the host to do. -/
def State.resetOf (a : Alg) : State where
  alg := a
  stateFlag := .uninit
  rk := zeroKeys a
  kb := zeros (keyBufferBytes a)
  ks := zeros (expansionBufferBytes a)
  wb := zeros a.blockSize
  r := 0
  trace := []
  cmd := none
  rsp := none
  host := []

/-- The machine right after reset (R30): the instance of REF16 (log entry 1), an empty host script (log entry 4). -/
def State.reset : State := State.resetOf resetAlg

end Sys2Proof.Machine
end

