-- ==== Sys2Proof/Machine/Flags.lean ====
section
/-! DEFINITION. Status codes, the READY bit and the response word (R28, R62): all the flags BCCORE has. -/

namespace Sys2Proof.Machine

/-- The STATUS code (R62, R220). -/
def Status.code : Status → BitVec 8
  | .ok => 0x00
  | .invalidKeySize => 0x01
  | .invalidBlockSize => 0x02
  | .invalidState => 0x03
  | .invalidCommand => 0x04

/-- The status an error is reported with (R220). -/
def Error.status : Error → Status
  | .keySize => .invalidKeySize
  | .blockSize => .invalidBlockSize
  | .engineState => .invalidState
  | .command => .invalidCommand

/-- READY, the copy of `STATE` in every response word (R21, R28). -/
def StateFlag.readyBit : StateFlag → Bool
  | .uninit => false
  | .ready => true

/-- The LEN field of a response with `n` payload bytes (R62); where 16 bits do not hold it, a free value (log entry 6). -/
def responseLen (n : Nat) : BitVec 16 := if n < 65536 then BitVec.ofNat 16 n else Config.oversizeLen n

/-- The response word (R62): LEN in 31:16, zero in 15:9, READY in 8, STATUS in 7:0. -/
def responseWord (status : Status) (flag : StateFlag) (payloadLen : Nat) : Word :=
  responseLen payloadLen ++ 0#7 ++ BitVec.ofBool flag.readyBit ++ status.code

/-- STATUS of a response (R62). -/
def Response.status (q : Response) : BitVec 8 := q.word.extractLsb' 0 8

/-- READY of a response (R62). -/
def Response.ready (q : Response) : Bool := q.word.getLsbD 8

/-- Bits 15:9 of a response, always 0 (R62). -/
def Response.reserved (q : Response) : BitVec 7 := q.word.extractLsb' 9 7

/-- LEN of a response (R62). -/
def Response.len (q : Response) : BitVec 16 := q.word.extractLsb' 16 16

end Sys2Proof.Machine
end

