-- ==== Sys2Proof/Machine/Operands.lean ====
section
/-! DEFINITION. The operand forms (R61, R65): the payload as Key (format K) or Block (format B), and the INFO record (R176). -/

namespace Sys2Proof.Machine

/-- Format K: is the payload a Key, a vector whose length is in KEY_SIZES (R61, R101)? -/
def State.acceptsKey (s : State) (p : Bytes) : Bool := validKeySize s.alg p.length

/-- Format B: is the payload a Block, a vector of exactly BLOCK_SIZE bytes (R61, R142)? -/
def State.acceptsBlock (s : State) (p : Bytes) : Bool := decide (p.length = s.alg.blockSize)

/-- `info_record()` (R176): the published constants, 16-bit fields, low byte first. -/
def infoRecord (a : Alg) : Bytes :=
  le16 a.blockSize ++ le16 a.roundCount ++ le16 a.rkBytes ++ le16 a.keySizes.length ++ a.keySizes.flatMap le16

end Sys2Proof.Machine
end

