-- ==== Sys2Proof/Machine/Rounds.lean ====
section
/-! DEFINITION. CipherEngine's round iterations (R144, R145). -/

namespace Sys2Proof.Machine

/-- `RK[i]` of a round-key register file (R42). -/
def roundKey (rk : List Bytes) (i : Nat) : Bytes := rk.getD i []

/-- Is `r` the last round, `N-1` (R126)? -/
def isLastRound (a : Alg) (r : Nat) : Bool := decide (r + 1 = a.roundCount)

/-- The loop of R144: `n` further rounds, the counter `r` ascending. -/
def encryptLoop (a : Alg) (rk : List Bytes) : Nat → Nat → Bytes → Traced Bytes
  | 0, _, x => ⟨x, [.branch .roundLoop false]⟩
  | n + 1, r, x =>
    ((forward a x (roundKey rk r) (isLastRound a r)).bind (encryptLoop a rk n (r + 1))).after
      [.branch .roundLoop true, .rkRead r]

/-- The loop of R145: `n` further rounds, the counter `r` descending. -/
def decryptLoop (a : Alg) (rk : List Bytes) : Nat → Nat → Bytes → Traced Bytes
  | 0, _, x => ⟨x, [.branch .roundLoop false]⟩
  | n + 1, r, x =>
    ((inverse a x (roundKey rk r) (isLastRound a r)).bind (decryptLoop a rk n (r - 1))).after
      [.branch .roundLoop true, .rkRead r]

/-- `encrypt_rounds(b)`: exactly `N` rounds, keys 0..N-1 in ascending order (R144). -/
def encryptRounds (a : Alg) (rk : List Bytes) (b : Bytes) : Traced Bytes :=
  encryptLoop a rk a.roundCount 0 b

/-- `decrypt_rounds(c)`: exactly `N` rounds, keys N-1..0 in descending order (R145). -/
def decryptRounds (a : Alg) (rk : List Bytes) (c : Bytes) : Traced Bytes :=
  decryptLoop a rk a.roundCount (a.roundCount - 1) c

end Sys2Proof.Machine
end

