-- ==== Sys2Proof/Machine/Ops.lean ====
section
/-! DEFINITION. The shared operations on the state: trace, round-key registers, transients, responses, errors, reset. -/

namespace Sys2Proof.Machine

/-- The start of a command: the access trace is empty (R29). -/
def State.start (s : State) : State := { s with trace := [] }

/-- Append events to the access trace (R88). -/
def State.emit (s : State) (es : List Event) : State := { s with trace := s.trace ++ es }

/-- A control decision at a named site (R88). -/
def State.decision (s : State) (site : Site) (taken : Bool) : State := s.emit [.branch site taken]

/-- `MemWrite(RK:i, RK_BYTES, v)`: register `i` is replaced whole (R42). -/
def State.writeRk (s : State) (i : Nat) (v : Bytes) : State :=
  { s.emit [.rkWrite i] with rk := s.rk.set i v }

/-- The write loop of KEYLOAD and ZEROIZE (R141, R170): the registers from `i` on, in ascending order. -/
def State.writeKeysFrom (i : Nat) : List Bytes → State → State
  | [], s => s.decision .rkWriteLoop false
  | k :: ks, s => State.writeKeysFrom (i + 1) ks ((s.decision .rkWriteLoop true).writeRk i k)

/-- `KB <- 0; KS <- 0; WB <- 0; r <- 0` (R26, R27). -/
def State.clearTransients (s : State) : State :=
  { s with
    kb := zeros (keyBufferBytes s.alg)
    ks := zeros (expansionBufferBytes s.alg)
    wb := zeros s.alg.blockSize
    r := 0 }

/-- The transients hold nothing: their state between commands (R26). -/
def State.TransientsClear (s : State) : Prop :=
  s.kb = zeros (keyBufferBytes s.alg) ∧ s.ks = zeros (expansionBufferBytes s.alg) ∧ s.wb = zeros s.alg.blockSize ∧ s.r = 0

/-- Issue a response with the given status and payload: the transients are cleared first (R26), READY is `STATE` after the
command (R62). -/
def State.respond (s : State) (status : Status) (q : Bytes) : State :=
  { s.clearTransients with rsp := some ⟨responseWord status s.stateFlag q.length, q⟩ }

/-- TAKING AN ERROR (R221), the one shared operation: the command ends, the transients are cleared, `STATE` and `RK` stay as they
were, the response carries the error's code, the unchanged READY, LEN 0 and no payload; nothing is saved anywhere. There is
no return from it (R227): the next command is accepted as after OK. -/
def State.raise (s : State) (e : Error) : State := s.respond e.status []

/-- RESET (R250, R30): the state after reset of the same instance, whatever was going on (R253); the channels are emptied. Only the
host's own script is not the engine's to clear. -/
def State.assertReset (s : State) : State := { State.resetOf s.alg with host := s.host }

/-- Exactly `N` round-key registers of exactly `RK_BYTES` bytes (R22): the canonical form of the one writable space. -/
def State.RkShape (s : State) : Prop :=
  s.rk.length = s.alg.roundCount ∧ ∀ k ∈ s.rk, k.length = s.alg.rkBytes

/-- `LAT` of a command in a state (R271): it sees OPCODE, LEN, `STATE` and the constants. -/
def State.latency (s : State) (c : Command) : Nat :=
  Config.latency s.alg c.opcode c.len s.stateFlag.readyBit

end Sys2Proof.Machine
end

