-- ==== Sys2Proof/Machine/CipherEngine.lean ====
section
/-! DEFINITION. CipherEngine's commands (44_cipher_engine.md): KEYLOAD, ENCRYPT, DECRYPT. -/

namespace Sys2Proof.Machine

/-- What KEYLOAD does once its checks have passed (R141): `derive` without its check, which was made once (R101), the `N`
register writes, `STATE <- READY`. -/
def State.loadKey (s : State) (key : Bytes) : State :=
  let s := { s with kb := key }
  let d := expand s.alg s.kb
  let s := { s.emit d.trace with ks := d.val.2.bytes }
  let s := s.writeKeysFrom 0 d.val.1
  ({ s with stateFlag := .ready }).respond .ok []

/-- KEYLOAD (R141): the size is checked before the state (R226). -/
def execKeyload (key : Bytes) (s : State) : Host.Outcome State Fault Refusal :=
  let s := s.start.decision .keySize (!s.acceptsKey key)
  if s.acceptsKey key = false then .next (s.raise .keySize)
  else
    let s := s.decision .engineState (s.stateFlag == .ready)
    if s.stateFlag = .ready then .next (s.raise .engineState)
    else .next (s.loadKey key)

/-- The block commands' common frame (R142, R143): the size check, then the state check, then the rounds on the working block `WB`
from the round counter's first value on, the result the response's payload. -/
def State.blockCommand (s : State) (block : Bytes) (firstRound : Nat)
    (rounds : Nat → Bytes → Traced Bytes) : State :=
  let s := s.start.decision .blockSize (!s.acceptsBlock block)
  if s.acceptsBlock block = false then s.raise .blockSize
  else
    let s := s.decision .engineState (s.stateFlag == .uninit)
    if s.stateFlag = .uninit then s.raise .engineState
    else
      let s := { s with wb := block, r := firstRound }
      let t := rounds s.r s.wb
      let s := { s.emit t.trace with wb := t.val }
      s.respond .ok s.wb

/-- ENCRYPT (R142): `encrypt_rounds` (R144), `r` from 0 upwards. -/
def execEncrypt (block : Bytes) (s : State) : Host.Outcome State Fault Refusal :=
  .next (s.blockCommand block 0 (encryptLoop s.alg s.rk s.alg.roundCount))

/-- DECRYPT (R143): `decrypt_rounds` (R145), `r` from N-1 downwards. -/
def execDecrypt (block : Bytes) (s : State) : Host.Outcome State Fault Refusal :=
  .next (s.blockCommand block (s.alg.roundCount - 1) (decryptLoop s.alg s.rk s.alg.roundCount))

end Sys2Proof.Machine
end

