-- ==== Sys2Proof/Machine/System.lean ====
section
/-! DEFINITION. The system commands (45_system_commands.md): ZEROIZE, INFO. -/

namespace Sys2Proof.Machine

/-- ZEROIZE (R170): all `N` registers are written with zeros whatever they hold, `STATE <- UNINIT`; in both states. -/
def execZeroize (s : State) : Host.Outcome State Fault Refusal :=
  let s := s.start.writeKeysFrom 0 (zeroKeys s.alg)
  .next (({ s with stateFlag := .uninit }).respond .ok [])

/-- INFO (R175): the record of the published constants; nothing is written; in both states. -/
def execInfo (s : State) : Host.Outcome State Fault Refusal :=
  .next (s.start.respond .ok (infoRecord s.alg))

end Sys2Proof.Machine
end

