-- ==== Sys2Proof/Machine/Dispatch.lean ====
section
/-! DEFINITION. One arm per command of the opcode table. -/

namespace Sys2Proof.Machine

def exec (i : Instr) (s : State) : Host.Outcome State Fault Refusal :=
  match i with
  | .keyload key => Sys2Proof.Machine.execKeyload key s
  | .encrypt block => Sys2Proof.Machine.execEncrypt block s
  | .decrypt block => Sys2Proof.Machine.execDecrypt block s
  | .zeroize => Sys2Proof.Machine.execZeroize s
  | .info => Sys2Proof.Machine.execInfo s

end Sys2Proof.Machine
end

