-- ==== Sys2Proof/Machine/Channel.lean ====
section
/-! DEFINITION. The command and response channels and the host's moves (R48, R49, R60, R250, R260): whose turn it is, and what it does.
Log entry 3 (DESIGN CHOICE) says how the two agents' turns are interleaved. -/

namespace Sys2Proof.Machine

/-- The command of the channel is accepted and its payload consumed whole, whether or not it then fails (R65). -/
def State.accept (s : State) : State := { s with cmd := none }

/-- One whole command (R48): a legal word runs its instruction, an illegal one is answered InvalidCommand with nothing
changed (R66, R225). -/
def State.runCommand (s : State) (c : Command) : Host.Outcome State Fault Refusal :=
  match decode c with
  | .ok i => exec i s.accept
  | .error _ => .next (s.accept.start.raise .command)

/-- The host sends payload bytes (R60): they belong to the command on the channel and must not exceed its LEN (R260). Bytes that exceed it,
or have no command, are the fault payloadOverrun; a move of no bytes exceeds nothing, so with no command on the channel it is passed
over, and with a command it changes nothing (log entry 3, DESIGN CHOICE: the spec does not speak of such a move). -/
def State.receivePayload (s : State) (bs : Bytes) (rest : List HostMove) : Host.Outcome State Fault Refusal :=
  match s.cmd with
  | some c =>
    if c.payload.length + bs.length ≤ c.len.toNat then
      .next { s with cmd := some { c with payload := c.payload ++ bs }, host := rest }
    else .fault .payloadOverrun
  | none => if bs = [] then .next { s with host := rest } else .fault .payloadOverrun

/-- The host's turn. A command is held back while another is on the channel (R260); taking waits for a response; with no move left
the engine waits for a command (R251). -/
def State.hostTurn (s : State) : Host.Outcome State Fault Refusal :=
  match s.host with
  | [] => .next s
  | .command c :: rest => if s.cmd = none then .next { s with cmd := some c, host := rest } else .next s
  | .payload bs :: rest => s.receivePayload bs rest
  | .take :: rest => if s.rsp = none then .next s else .next { s with rsp := none, host := rest }
  | .wait :: rest => .next { s with host := rest }
  | .reset :: rest => .next ({ s with host := rest }).assertReset

/-- The engine's turn with command `c` on the channel and no response held: it waits for missing payload bytes (U22), runs a complete
command, and has no behaviour for excess bytes (R260). -/
def State.engineTurn (s : State) (c : Command) : Host.Outcome State Fault Refusal :=
  if c.payload.length < c.len.toNat then s.hostTurn
  else if c.payload.length = c.len.toNat then s.runCommand c
  else .fault .payloadOverrun

/-- Reset takes the place of whatever else could happen (R253). Else the engine moves when it can: a command is there and the
last response has been taken (R49, R260, U23). Else it is the host's turn. -/
def State.turn (s : State) : Host.Outcome State Fault Refusal :=
  match s.host with
  | .reset :: _ => s.hostTurn
  | _ =>
    match s.cmd, s.rsp with
    | some c, none => s.engineTurn c
    | _, _ => s.hostTurn

/-- A step of a conforming instance; a record that is no `Alg` of BCCORE is refused (U8, U27). -/
def State.guardedTurn (s : State) : Host.Outcome State Fault Refusal :=
  if algOk s.alg then s.turn else .refused .nonconformingAlg

/-- The same state with `c` on the command channel, no response held and no reset next, so that the next step runs `c`. -/
def State.offer (s : State) (c : Command) : State :=
  { s with cmd := some c, rsp := none, host := s.host.dropWhile (· == .reset) }

end Sys2Proof.Machine
end

