-- ==== Sys2Proof/Machine/Step.lean ====
section
/-! DEFINITION. One step of the machine, and the placing of a command where the step takes its next one. -/

namespace Sys2Proof.Machine

/-- One step: the engine's (one whole command, R48) or the host's. -/
def step (s : State) : Host.Outcome State Fault Refusal := s.guardedTurn

/-- `s` with the command whose bits are `w` on the command channel, complete, its payload zeros (log entry 4: a program is the
host's command sequence, given from outside the machine). -/
def State.withFetchWord (s : State) (nbits w : Nat) : State := s.offer (commandOfBits nbits w)

end Sys2Proof.Machine
end

