-- ==== Sys2Proof/Machine/Instances.lean ====
section
/-! DEFINITION. A system of several instances: the product of independent machines (R53). -/

namespace Sys2Proof.Machine

/-- One step of instance `i` of a system; a fault or a refusal of it stops the system, and there is no instance beyond the last. -/
def stepInstance (i : Nat) (sys : List State) : Host.Outcome (List State) Fault Refusal :=
  match sys[i]? with
  | none => .next sys
  | some s =>
    match step s with
    | .next s' => .next (sys.set i s')
    | .fault f => .fault f
    | .refused f => .refused f

end Sys2Proof.Machine
end

