-- ==== Sys2Proof/Safety.lean ====
section
/-! DEFINITION. What holds of every state a conforming instance reaches, and when the engine can accept a command. -/

namespace Sys2Proof.Machine

/-- R23: in UNINIT every byte of `RK` is 0x00; in READY `RK` is `derive(K)` of some key `K` of a valid size. -/
def State.KeyInvariant (s : State) : Prop :=
  (s.stateFlag = .uninit → s.rk = zeroKeys s.alg) ∧
  (s.stateFlag = .ready → ∃ key : Bytes, (derive s.alg key).val = some s.rk)

/-- A response as R62 lays it out, for an engine in the given state: READY is `STATE`, bits 15:9 are 0, the status is one of the
five, LEN is the payload's length where 16 bits hold it. -/
def Response.Framed (q : Response) (flag : StateFlag) : Prop :=
  q.ready = flag.readyBit ∧ q.reserved = 0 ∧ q.status.toNat ≤ 4 ∧
  (q.payload.length < 65536 → q.len.toNat = q.payload.length)

/-- A held response shows the engine's present `STATE` (R49: no command is accepted before it is taken). -/
def State.ResponseInvariant (s : State) : Prop := ∀ q, s.rsp = some q → q.Framed s.stateFlag

/-- The invariant of a conforming instance between steps: its constants are an `Alg` (R6), `RK` has its shape (R22), R23, the
transients are zero (R26, R27), a held response is framed (R62). -/
def State.Inv (s : State) : Prop :=
  algOk s.alg = true ∧ s.RkShape ∧ s.KeyInvariant ∧ s.TransientsClear ∧ s.ResponseInvariant

/-- The engine can accept command `c` now: the instance is conforming, the command is on the channel with all its payload bytes, no
response is held, and the host is not asserting reset (R49, R253, R260). -/
def State.CanRun (s : State) (c : Command) : Prop :=
  algOk s.alg = true ∧ s.cmd = some c ∧ c.complete = true ∧ s.rsp = none ∧ ∀ rest, s.host ≠ .reset :: rest

end Sys2Proof.Machine
end

