-- ==== Sys2Proof/Certificates/Slice0/Obligations.lean ====
section
/-! DEFINITION. The statements for the provers. -/

open Sys2Proof Sys2Proof.Machine

/-! ## Encoding (30_encoding.md) -/

/-- R60, R61, R63: decoding the encoding of a well-formed command gives it back, every operand whole, and the encoding is framed. -/
def Obligations.DecodeInvertsEncode : Prop :=
  ∀ i : Instr, i.wellFormed = true → (encode i).complete = true ∧ decode (encode i) = .ok i

/-- R61, R63: every legal, complete command is the encoding of the instruction it decodes to: each word has one meaning. -/
def Obligations.EncodeInvertsDecode : Prop :=
  ∀ (c : Command) (i : Instr), c.complete = true → decode c = .ok i → i.wellFormed = true ∧ encode i = c

/-- R68's example words, and the two format N words, decode to the commands they stand for. -/
def Obligations.SpecWordsDecode : Prop :=
  decode ⟨0x00100001#32, zeros 16⟩ = .ok (.keyload (zeros 16)) ∧
  decode ⟨0x00100002#32, zeros 16⟩ = .ok (.encrypt (zeros 16)) ∧
  decode ⟨0x00080003#32, zeros 8⟩ = .ok (.decrypt (zeros 8)) ∧
  decode ⟨0x00000004#32, []⟩ = .ok .zeroize ∧
  decode ⟨0x00000005#32, []⟩ = .ok .info

/-- R66: which words are illegal, and what an illegal command does: it is consumed and answered InvalidCommand with no payload and the
unchanged READY; no architectural state changes (in particular an illegal ZEROIZE does not zeroise). That its trace is empty is the
model's choice (log entry 10: decoding has no event). -/
def Obligations.IllegalCommandChangesNothing : Prop :=
  (∀ c : Command, (∃ e, decode c = .error e) ↔
    (c.rsvd ≠ 0#8 ∨ c.opcode = 0x00#8 ∨ 0x06 ≤ c.opcode.toNat ∨
      ((c.opcode = 0x04#8 ∨ c.opcode = 0x05#8) ∧ c.len ≠ 0#16))) ∧
  (∀ (s : State) (c : Command), s.CanRun c → s.TransientsClear → (∃ e, decode c = .error e) →
    step s = .next { s with
      cmd := none
      trace := []
      rsp := some ⟨if s.stateFlag = .ready then 0x00000104#32 else 0x00000004#32, []⟩ })

/-- R64: the two block commands are the words with OPCODE[7:1] = 0000001; they differ in OPCODE[0] alone, which selects the pass:
0 the forward one, 1 the inverse one. -/
def Obligations.DirectionBitSelectsThePass : Prop :=
  ∀ c : Command, c.rsvd = 0#8 →
    (c.opcode.extractLsb' 1 7 = 0x01#7 ∧ c.opcode.getLsbD 0 = false ↔ ∃ b, decode c = .ok (.encrypt b)) ∧
    (c.opcode.extractLsb' 1 7 = 0x01#7 ∧ c.opcode.getLsbD 0 = true ↔ ∃ b, decode c = .ok (.decrypt b))

/-- R62: the fields of every response word the engine builds. -/
def Obligations.ResponseWordLayout : Prop :=
  ∀ (st : Status) (flag : StateFlag) (q : Bytes),
    let resp : Response := ⟨responseWord st flag q.length, q⟩
    resp.status.toNat = (match st with
      | .ok => 0 | .invalidKeySize => 1 | .invalidBlockSize => 2 | .invalidState => 3 | .invalidCommand => 4) ∧
    (resp.ready = true ↔ flag = .ready) ∧
    resp.reserved = 0#7 ∧
    (q.length < 65536 → resp.len.toNat = q.length)

/-! ## Steps, channels, reset -/

/-- R48, R49: when the engine can accept the command on the channel and it decodes to `i`, the step is `exec i` with the command
consumed. -/
def Obligations.StepRunsTheDecodedCommand : Prop :=
  ∀ (s : State) (c : Command) (i : Instr), s.CanRun c → decode c = .ok i → step s = exec i { s with cmd := none }

/-- A command placed by `withFetchWord` is what the very next step runs (the placing is the model's choice, log entry 4). -/
def Obligations.PlacedCommandRunsNext : Prop :=
  ∀ (s : State) (nbits w : Nat) (i : Instr), algOk s.alg = true → decodeTableWord nbits w = some i →
    step (s.withFetchWord nbits w) =
      exec i { s with cmd := none, rsp := none, host := s.host.dropWhile (· == .reset) }

/-- R30: the state after reset, for every parameter record. -/
def Obligations.ResetStateIsZeroised : Prop :=
  ∀ a : Alg, (State.resetOf a).stateFlag = .uninit ∧
    (State.resetOf a).rk.length = a.roundCount ∧
    (∀ k ∈ (State.resetOf a).rk, k.length = a.rkBytes ∧ ∀ b ∈ k, b = 0x00#8) ∧
    (∀ b ∈ (State.resetOf a).kb ++ (State.resetOf a).ks ++ (State.resetOf a).wb, b = 0x00#8) ∧
    (State.resetOf a).r = 0 ∧
    (State.resetOf a).alg = a ∧
    (State.resetOf a).trace = [] ∧
    (State.resetOf a).cmd = none ∧ (State.resetOf a).rsp = none

/-- R250, R253: reset, at any time, in any state, whatever is on the channels, gives exactly the reset state of the same instance;
the host's later moves are the host's (log entry 4). -/
def Obligations.ResetAtAnyTime : Prop :=
  ∀ (s : State) (rest : List HostMove), algOk s.alg = true → s.host = .reset :: rest →
    step s = .next { State.resetOf s.alg with host := rest }

/-- R228, R156, R60: a command the engine can accept always ends in a next state with its response issued and itself consumed; no command
faults, is refused or waits. -/
def Obligations.EveryCommandIsAnswered : Prop :=
  ∀ (s : State) (c : Command), s.CanRun c →
    ∃ t q, step s = .next t ∧ t.cmd = none ∧ t.rsp = some q ∧ t.host = s.host

/-- R49, R260, U22, U23: while a response is held, or the command's payload is incomplete, no command is executed: without a reset the
engine's constants, `STATE`, `RK` and transients stay, and no response is issued. A command on the channel stays there, only payload
bytes are added to it, so a second command is held back; an empty channel can only receive the command the host offers. That the trace
of the last command stays is the model's choice (log entry 10). -/
def Obligations.EngineHeldBack : Prop :=
  ∀ s t : State, (∀ rest, s.host ≠ .reset :: rest) →
    (s.rsp ≠ none ∨ s.cmd = none ∨ ∃ c, s.cmd = some c ∧ c.payload.length < c.len.toNat) →
    step s = .next t →
    t.alg = s.alg ∧ t.stateFlag = s.stateFlag ∧ t.rk = s.rk ∧ t.kb = s.kb ∧ t.ks = s.ks ∧ t.wb = s.wb ∧ t.r = s.r ∧
      t.trace = s.trace ∧ (t.rsp = s.rsp ∨ t.rsp = none) ∧
      (∀ c, s.cmd = some c → ∃ bs, t.cmd = some { c with payload := c.payload ++ bs }) ∧
      (s.cmd = none → t.cmd = none ∨ ∃ c rest, s.host = .command c :: rest ∧ t.cmd = some c)

/-- R60, R260: a command the host offers lands on the empty channel, as it was sent; while another command is there that the engine does not
run (its payload is incomplete, or a response is held), the offer is held back and nothing changes. -/
def Obligations.OfferedCommandLandsOrWaits : Prop :=
  ∀ (s : State) (c : Command) (rest : List HostMove), algOk s.alg = true → s.host = .command c :: rest →
    (s.cmd = none → step s = .next { s with cmd := some c, host := rest }) ∧
    (∀ d, s.cmd = some d → (s.rsp ≠ none ∨ d.payload.length < d.len.toNat) → step s = .next s)

/-- R60, R260, U22: payload bytes the host sends are appended, in order, to the command on the channel, up to its LEN; with the last of them, no
response held and no reset next, the engine can run the command. That a move of no bytes (`bs = []`) is consumed and leaves the command as
it is, is the model's choice (log entry 3). -/
def Obligations.PayloadBytesArrive : Prop :=
  ∀ (s : State) (c : Command) (bs : Bytes) (rest : List HostMove), algOk s.alg = true → s.host = .payload bs :: rest →
    s.cmd = some c → (s.rsp ≠ none ∨ c.payload.length < c.len.toNat) → c.payload.length + bs.length ≤ c.len.toNat →
    ∃ t, step s = .next t ∧ t = { s with cmd := some { c with payload := c.payload ++ bs }, host := rest } ∧
      (c.payload.length + bs.length = c.len.toNat → s.rsp = none → (∀ r, rest ≠ .reset :: r) →
        t.CanRun { c with payload := c.payload ++ bs })

/-- R260, U23: taking empties the response channel and changes nothing else; the engine can then run a complete command that waited. That with no
response held and no command to run the move waits and leaves the state as it is, is the model's choice (log entry 3). -/
def Obligations.TakenResponseFreesTheEngine : Prop :=
  ∀ (s : State) (rest : List HostMove), algOk s.alg = true → s.host = .take :: rest →
    (∀ q, s.rsp = some q → ∃ t, step s = .next t ∧ t = { s with rsp := none, host := rest } ∧
      ∀ c, s.cmd = some c → c.complete = true → (∀ r, rest ≠ .reset :: r) → t.CanRun c) ∧
    (s.rsp = none → (s.cmd = none ∨ ∃ c, s.cmd = some c ∧ c.payload.length < c.len.toNat) → step s = .next s)

/-- R251 and log entries 3 and 4 (the model's choice of the other moves): with nothing to run, a wait is passed over, no move left is the idle
step, and payload bytes that have no command are the fault payloadOverrun, unless there are none. -/
def Obligations.IdleMoves : Prop :=
  ∀ s : State, algOk s.alg = true →
    (s.rsp ≠ none ∨ s.cmd = none ∨ ∃ c, s.cmd = some c ∧ c.payload.length < c.len.toNat) →
    (s.host = [] → step s = .next s) ∧
    (∀ rest, s.host = .wait :: rest → step s = .next { s with host := rest }) ∧
    (∀ bs rest, s.host = .payload bs :: rest → s.cmd = none →
      step s = if bs = [] then .next { s with host := rest } else .fault .payloadOverrun)

/-- Log entry 3 (the model's choice for what R260 forbids and U22 calls not expressible): a conforming instance stops only when the host
has sent, or is sending, at least one payload byte beyond LEN or without a command. -/
def Obligations.OnlyExcessPayloadFaults : Prop :=
  ∀ s : State, algOk s.alg = true → (∀ r, step s ≠ .refused r) ∧
    (∀ f, step s = .fault f →
      (∃ c, s.cmd = some c ∧ c.len.toNat < c.payload.length) ∨
      (∃ bs rest, s.host = .payload bs :: rest ∧ bs ≠ [] ∧
        (s.cmd = none ∨ ∃ c, s.cmd = some c ∧ c.len.toNat < c.payload.length + bs.length)))

/-! ## Errors (60_exceptions.md) -/

/-- R221: taking an error: the transients are cleared, `STATE`, `RK` and everything else stay as they were, the response carries the code
of the error (R220), READY = `STATE`, LEN 0 and no payload; nothing is saved anywhere. -/
def Obligations.ErrorResponse : Prop :=
  ∀ (s : State) (e : Error), s.raise e = { s with
    kb := zeros (keyBufferBytes s.alg)
    ks := zeros (expansionBufferBytes s.alg)
    wb := zeros s.alg.blockSize
    r := 0
    rsp := some ⟨(match e with
        | .keySize => 0x00000001#32 | .blockSize => 0x00000002#32
        | .engineState => 0x00000003#32 | .command => 0x00000004#32) |||
      (if s.stateFlag = .ready then 0x00000100#32 else 0#32), []⟩ }

/-- R226: a command reports exactly one status, the first that applies: InvalidCommand, the size error of the decoded command,
InvalidState, else OK. -/
def Obligations.ErrorPriority : Prop :=
  ∀ (s : State) (c : Command), s.CanRun c →
    ∃ t q, step s = .next t ∧ t.rsp = some q ∧ q.status =
      if c.rsvd ≠ 0#8 ∨ c.opcode = 0x00#8 ∨ 0x06 ≤ c.opcode.toNat ∨
          ((c.opcode = 0x04#8 ∨ c.opcode = 0x05#8) ∧ c.len ≠ 0#16) then 0x04#8
      else if c.opcode = 0x01#8 ∧ c.len.toNat ∉ s.alg.keySizes then 0x01#8
      else if (c.opcode = 0x02#8 ∨ c.opcode = 0x03#8) ∧ c.len.toNat ≠ s.alg.blockSize then 0x02#8
      else if (c.opcode = 0x01#8 ∧ s.stateFlag = .ready) ∨
          ((c.opcode = 0x02#8 ∨ c.opcode = 0x03#8) ∧ s.stateFlag = .uninit) then 0x03#8
      else 0x00#8

/-! ## The commands (44_cipher_engine.md, 45_system_commands.md) -/

/-- R141: KEYLOAD on every operand in both states. Success writes exactly the derived keys and READY; either error writes nothing and (R101, V73)
reads no table and touches no register. -/
def Obligations.KeyloadMeaning : Prop :=
  ∀ (s : State) (key : Bytes),
    (key.length ∉ s.alg.keySizes → ∃ tr,
      tr.filter Event.isTable = [] ∧ tr.filter Event.isRk = [] ∧
      exec (.keyload key) s = .next ({ s with trace := tr }.raise .keySize)) ∧
    (key.length ∈ s.alg.keySizes → s.stateFlag = .ready → ∃ tr,
      tr.filter Event.isTable = [] ∧ tr.filter Event.isRk = [] ∧
      exec (.keyload key) s = .next ({ s with trace := tr }.raise .engineState)) ∧
    (key.length ∈ s.alg.keySizes → s.stateFlag = .uninit → s.rk.length = s.alg.roundCount →
      ∃ keys tr, (derive s.alg key).val = some keys ∧
        tr.filter Event.isRk = (List.range s.alg.roundCount).map Event.rkWrite ∧
        exec (.keyload key) s = .next { s with
          stateFlag := .ready
          rk := keys
          kb := zeros (keyBufferBytes s.alg)
          ks := zeros (expansionBufferBytes s.alg)
          wb := zeros s.alg.blockSize
          r := 0
          trace := tr
          rsp := some ⟨0x00000100#32, []⟩ })

/-- R142: ENCRYPT on every operand in both states; no architectural state is written; an error has no table and no RK event (V73). -/
def Obligations.EncryptMeaning : Prop :=
  ∀ (s : State) (block : Bytes), algOk s.alg = true → s.RkShape →
    (block.length ≠ s.alg.blockSize → ∃ tr,
      tr.filter Event.isTable = [] ∧ tr.filter Event.isRk = [] ∧
      exec (.encrypt block) s = .next ({ s with trace := tr }.raise .blockSize)) ∧
    (block.length = s.alg.blockSize → s.stateFlag = .uninit → ∃ tr,
      tr.filter Event.isTable = [] ∧ tr.filter Event.isRk = [] ∧
      exec (.encrypt block) s = .next ({ s with trace := tr }.raise .engineState)) ∧
    (block.length = s.alg.blockSize → s.stateFlag = .ready →
      ∃ q tr, q = (encryptRounds s.alg s.rk block).val ∧ q.length = s.alg.blockSize ∧
        tr.filter Event.isRk = (List.range s.alg.roundCount).map Event.rkRead ∧
        exec (.encrypt block) s = .next { s with
          kb := zeros (keyBufferBytes s.alg)
          ks := zeros (expansionBufferBytes s.alg)
          wb := zeros s.alg.blockSize
          r := 0
          trace := tr
          rsp := some ⟨BitVec.ofNat 32 (s.alg.blockSize * 65536 + 0x100), q⟩ })

/-- R143: DECRYPT on every operand in both states; no architectural state is written; an error has no table and no RK event (V73). -/
def Obligations.DecryptMeaning : Prop :=
  ∀ (s : State) (block : Bytes), algOk s.alg = true → s.RkShape →
    (block.length ≠ s.alg.blockSize → ∃ tr,
      tr.filter Event.isTable = [] ∧ tr.filter Event.isRk = [] ∧
      exec (.decrypt block) s = .next ({ s with trace := tr }.raise .blockSize)) ∧
    (block.length = s.alg.blockSize → s.stateFlag = .uninit → ∃ tr,
      tr.filter Event.isTable = [] ∧ tr.filter Event.isRk = [] ∧
      exec (.decrypt block) s = .next ({ s with trace := tr }.raise .engineState)) ∧
    (block.length = s.alg.blockSize → s.stateFlag = .ready →
      ∃ q tr, q = (decryptRounds s.alg s.rk block).val ∧ q.length = s.alg.blockSize ∧
        tr.filter Event.isRk = ((List.range s.alg.roundCount).map Event.rkRead).reverse ∧
        exec (.decrypt block) s = .next { s with
          kb := zeros (keyBufferBytes s.alg)
          ks := zeros (expansionBufferBytes s.alg)
          wb := zeros s.alg.blockSize
          r := 0
          trace := tr
          rsp := some ⟨BitVec.ofNat 32 (s.alg.blockSize * 65536 + 0x100), q⟩ })

/-- R170: ZEROIZE in both states: the engine is as after reset, all `N` registers written in order and nothing else touched; only the
channels, the trace and the host's script are not those of a reset. -/
def Obligations.ZeroizeMeaning : Prop :=
  ∀ s : State, s.rk.length = s.alg.roundCount →
    ∃ tr, tr.filter Event.isRk = (List.range s.alg.roundCount).map Event.rkWrite ∧
      tr.filter Event.isTable = [] ∧
      exec .zeroize s = .next { State.resetOf s.alg with
        trace := tr
        cmd := s.cmd
        rsp := some ⟨0x00000000#32, []⟩
        host := s.host }

/-- R175: INFO in both states: the record is the payload, nothing is written (LEN of an oversize record: log entry 6). V73: no table and
no RK event; that there is no branch event either is the model's choice (log entry 10: decoding has no event). -/
def Obligations.InfoMeaning : Prop :=
  ∀ s : State, exec .info s = .next { s with
      kb := zeros (keyBufferBytes s.alg)
      ks := zeros (expansionBufferBytes s.alg)
      wb := zeros s.alg.blockSize
      r := 0
      trace := []
      rsp := some ⟨responseWord .ok s.stateFlag (infoRecord s.alg).length, infoRecord s.alg⟩ }

/-- R176: the record's length and every field, low byte first. -/
def Obligations.InfoRecordLayout : Prop :=
  ∀ a : Alg, algOk a = true →
    (infoRecord a).length = 8 + 2 * a.keySizes.length ∧
    (byteAt (infoRecord a) 0).toNat + 256 * (byteAt (infoRecord a) 1).toNat = a.blockSize ∧
    (byteAt (infoRecord a) 2).toNat + 256 * (byteAt (infoRecord a) 3).toNat = a.roundCount ∧
    (byteAt (infoRecord a) 4).toNat + 256 * (byteAt (infoRecord a) 5).toNat = a.rkBytes ∧
    (byteAt (infoRecord a) 6).toNat + 256 * (byteAt (infoRecord a) 7).toNat = a.keySizes.length ∧
    (∀ j (h : j < a.keySizes.length),
      (byteAt (infoRecord a) (8 + 2 * j)).toNat + 256 * (byteAt (infoRecord a) (9 + 2 * j)).toNat = a.keySizes[j]) ∧
    a.keySizes.Pairwise (· < ·)

/-- R69, R261: from READY, REKEY (ZEROIZE, then KEYLOAD of a valid key) answers OK twice and leaves the new key's round keys, where
KEYLOAD alone is refused and the old key stays in force. -/
def Obligations.RekeyReplacesTheKey : Prop :=
  ∀ (s : State) (key : Bytes), s.RkShape → s.stateFlag = .ready → key.length ∈ s.alg.keySizes →
    (∃ t u, exec .zeroize s = .next t ∧ t.rsp = some ⟨0x00000000#32, []⟩ ∧
      exec (.keyload key) t = .next u ∧ u.rsp = some ⟨0x00000100#32, []⟩ ∧
      u.stateFlag = .ready ∧ (derive s.alg key).val = some u.rk) ∧
    (∃ t, exec (.keyload key) s = .next t ∧ t.rsp = some ⟨0x00000103#32, []⟩ ∧ t.stateFlag = .ready ∧ t.rk = s.rk)

/-! ## The components -/

/-- R82: the truth table of `eqmask8`. -/
def Obligations.EqmaskTruthTable : Prop :=
  ∀ a b : Byte, eqmask8 a b = if a = b then 0xFF#8 else 0x00#8

/-- R80: `substitute(x) = SBOX_TABLE[x]` for every byte, whatever strategy computes it, and the same for `substitute_inv` (R84). -/
def Obligations.SubstituteIsTheTable : Prop :=
  ∀ (a : Alg) (x : Byte), Conforming a →
    (substitute a x).val = byteAt a.sbox x.toNat ∧ (substituteInv a x).val = byteAt a.sboxInv x.toNat

/-- R81, R83, R87: the full scan reads all 256 entries in ascending order and nothing else, the formula reads nothing; for every input. -/
def Obligations.SubstituteAccessPattern : Prop :=
  ∀ (a : Alg) (x : Byte), Conforming a →
    (a.sboxStrategy = .fullScan →
      (substitute a x).trace.filter Event.isTable = (List.range 256).map (Event.table .sbox) ∧
      (substituteInv a x).trace.filter Event.isTable = (List.range 256).map (Event.table .sboxInv)) ∧
    (a.sboxStrategy ≠ .fullScan → (substitute a x).trace = [] ∧ (substituteInv a x).trace = [])

/-- R84, R7: `substitute` and `substitute_inv` undo each other on all bytes. -/
def Obligations.SubstituteInverts : Prop :=
  ∀ (a : Alg) (x : Byte), Conforming a →
    (substituteInv a (substitute a x).val).val = x ∧ (substitute a (substituteInv a x).val).val = x

/-- R85, R86: SubBytes, SubBytesInv and SubWord act on each byte, in ascending order in the trace. -/
def Obligations.SubBytesIsBytewise : Prop :=
  ∀ (a : Alg) (v : Bytes),
    (subBytes a v).val = v.map (fun x => (substitute a x).val) ∧
    (subBytesInv a v).val = v.map (fun x => (substituteInv a x).val) ∧
    (subBytes a v).trace.filter Event.isTable = v.flatMap (fun x => (substitute a x).trace.filter Event.isTable) ∧
    (subBytesInv a v).trace.filter Event.isTable = v.flatMap (fun x => (substituteInv a x).trace.filter Event.isTable) ∧
    subWord a v = subBytes a v

/-- R100, R101, R103: `derive` fails exactly on the lengths outside KEY_SIZES; else it gives exactly `N` keys of RK_BYTES bytes. -/
def Obligations.DeriveContract : Prop :=
  ∀ (a : Alg) (key : Bytes), algOk a = true →
    ((derive a key).val = none ↔ key.length ∉ a.keySizes) ∧
    (∀ keys, (derive a key).val = some keys →
      keys.length = a.roundCount ∧ ∀ k ∈ keys, k.length = a.rkBytes)

/-- R102: a length outside KEY_SIZES raises; else there are exactly `N` round keys, and round key `i` is the one KS_STEP produces in
iteration `i` from the state the iterations before left, starting at KS_INIT, which the key's length alone selects (R105). -/
def Obligations.DeriveIterates : Prop :=
  ∀ (a : Alg) (key : Bytes),
    (key.length ∉ a.keySizes → (derive a key).val = none) ∧
    (key.length ∈ a.keySizes → ∃ (keys : List Bytes) (st : Nat → KsState),
      (derive a key).val = some keys ∧ keys.length = a.roundCount ∧ st 0 = (ksInit a key).val ∧
      ∀ i < a.roundCount,
        keys[i]? = some (ksStep a i (st i)).val.1 ∧ st (i + 1) = (ksStep a i (st i)).val.2)

/-- R124, R125, R126: both passes as the composition of the stages in STAGE_ORDER, forward and reversed, D omitted exactly in a last
round of an algorithm whose last round does not diffuse. -/
def Obligations.RoundComposition : Prop :=
  ∀ (a : Alg) (b k : Bytes) (last : Bool),
    let fwd : Bytes → Stage → Bytes := fun x s => match s with
      | .K => keymix a x k
      | .S => (subBytes a x).val
      | .D => if last = true ∧ a.lastRoundDiffuses = false then x else diffuse a x
    let inv : Bytes → Stage → Bytes := fun x s => match s with
      | .K => keymixInv a x k
      | .S => (subBytesInv a x).val
      | .D => if last = true ∧ a.lastRoundDiffuses = false then x else diffuseInv a x
    (forward a b k last).val = (stages a.stageOrder).foldl fwd b ∧
    (inverse a b k last).val = (stages a.stageOrder).reverse.foldl inv b

/-- R7: the inverse laws hold in the other direction too, since blocks and bytes are finitely many. -/
def Obligations.InverseLawsBothWays : Prop :=
  ∀ a : Alg, Conforming a →
    (∀ b k : Bytes, b.length = a.blockSize → k.length = a.rkBytes → keymix a (keymixInv a b k) k = b) ∧
    (∀ b : Bytes, b.length = a.blockSize → diffuse a (diffuseInv a b) = b) ∧
    (∀ y : Byte, byteAt a.sbox (byteAt a.sboxInv y.toNat).toNat = y)

/-- R127: `inverse` undoes `forward` and `forward` undoes `inverse`, with the same key and the same `last`. -/
def Obligations.RoundInverseLaw : Prop :=
  ∀ (a : Alg) (b k : Bytes) (last : Bool), Conforming a → b.length = a.blockSize → k.length = a.rkBytes →
    (inverse a (forward a b k last).val k last).val = b ∧ (forward a (inverse a b k last).val k last).val = b

/-- R128: a round application produces one block of identical size. -/
def Obligations.RoundSizeLaw : Prop :=
  ∀ (a : Alg) (b k : Bytes) (last : Bool), algOk a = true → b.length = a.blockSize → k.length = a.rkBytes →
    (forward a b k last).val.length = a.blockSize ∧ (inverse a b k last).val.length = a.blockSize

/-- R144: exactly `N` applications of `forward`, round `r` with `RK[r]`, the output of each the input of the next, nothing before or
after; each key is read once, at the public counter. -/
def Obligations.EncryptRoundsIterate : Prop :=
  ∀ (a : Alg) (rk : List Bytes) (b : Bytes), ∃ x : Nat → Bytes, x 0 = b ∧
    (∀ r < a.roundCount, x (r + 1) = (forward a (x r) (roundKey rk r) (decide (r = a.roundCount - 1))).val) ∧
    (encryptRounds a rk b).val = x a.roundCount ∧
    (encryptRounds a rk b).trace.filter Event.isRk = (List.range a.roundCount).map Event.rkRead

/-- R145: exactly `N` applications of `inverse`, the first with `RK[N-1]`, the final one with `RK[0]`; each key is read
once, at the public counter. -/
def Obligations.DecryptRoundsIterate : Prop :=
  ∀ (a : Alg) (rk : List Bytes) (c : Bytes), ∃ x : Nat → Bytes, x a.roundCount = c ∧
    (∀ r < a.roundCount, x r = (inverse a (x (r + 1)) (roundKey rk r) (decide (r = a.roundCount - 1))).val) ∧
    (decryptRounds a rk c).val = x 0 ∧
    (decryptRounds a rk c).trace.filter Event.isRk = ((List.range a.roundCount).map Event.rkRead).reverse

/-- R186, R187: the formula of `SREF`, and the masked-entry circuit of `SREF_INV` (the model's choice, log entry 8), agree with the tables on all 256 bytes, and the two
tables undo each other. -/
def Obligations.SrefFormulaIsTheTable : Prop :=
  ∀ x : Byte, srefFormula.eval [x] = byteAt sref x.toNat ∧
    (tableCircuit 0 srefInv).eval [x] = byteAt srefInv x.toNat ∧
    byteAt srefInv (byteAt sref x.toNat).toNat = x

/-- R185: REF16 and REF8 are conforming values of `Alg`, under either substitution strategy. -/
def Obligations.ReferenceRecordsConform : Prop :=
  Conforming (ref16 .fullScan) ∧ Conforming (ref16 srefFormulaStrategy) ∧
  Conforming (ref8 .fullScan) ∧ Conforming (ref8 srefFormulaStrategy)

/-! ## Laws of the engine -/

/-- R150: DECRYPT of what ENCRYPT answered gives the block back, and ENCRYPT of what DECRYPT answered too, for every conforming record,
every loaded register file and every block. -/
def Obligations.EncryptDecryptRoundTrip : Prop :=
  ∀ (s : State) (block : Bytes), Conforming s.alg → s.RkShape → s.stateFlag = .ready → block.length = s.alg.blockSize →
    (∃ t q u p, exec (.encrypt block) s = .next t ∧ t.rsp = some q ∧
      exec (.decrypt q.payload) t = .next u ∧ u.rsp = some p ∧ p.status = 0x00#8 ∧ p.payload = block) ∧
    (∃ t q u p, exec (.decrypt block) s = .next t ∧ t.rsp = some q ∧
      exec (.encrypt q.payload) t = .next u ∧ u.rsp = some p ∧ p.status = 0x00#8 ∧ p.payload = block)

/-- R151: ENCRYPT and DECRYPT, successful or not, leave the engine exactly as it was: only the response and the trace, both outputs,
are new. -/
def Obligations.BlockCommandsAreStateless : Prop :=
  ∀ (s t : State) (i : Instr) (block : Bytes), s.TransientsClear → (i = .encrypt block ∨ i = .decrypt block) →
    exec i s = .next t → t = { s with trace := t.trace, rsp := t.rsp }

/-- R152, R154: the response to ENCRYPT and DECRYPT is a function of the constants, `STATE`, `RK` and the command alone. -/
def Obligations.BlockCommandsAreDeterministic : Prop :=
  ∀ (s t s' t' : State) (i : Instr) (block : Bytes), (i = .encrypt block ∨ i = .decrypt block) →
    t.alg = s.alg → t.stateFlag = s.stateFlag → t.rk = s.rk →
    exec i s = .next s' → exec i t = .next t' → t'.rsp = s'.rsp

/-- R52: the response to a block command is the same whether another caller's block command came before it or not. -/
def Obligations.InterleavingIsInvisible : Prop :=
  ∀ (s t u v : State) (i j : Instr) (b c : Bytes), (i = .encrypt b ∨ i = .decrypt b) → (j = .encrypt c ∨ j = .decrypt c) →
    exec i s = .next t → exec j t = .next u → exec j s = .next v → u.rsp = v.rsp

/-- R89: for a fixed record, command word and `STATE`, the access trace and the latency of a command are the same for all payload bytes
and all contents of `RK`. -/
def Obligations.ConstantTime : Prop :=
  ∀ (s t : State) (c d : Command), s.CanRun c → t.CanRun d → t.alg = s.alg → t.stateFlag = s.stateFlag →
    d.word = c.word → s.RkShape → t.RkShape →
    ∃ s' t', step s = .next s' ∧ step t = .next t' ∧ t'.trace = s'.trace ∧ t.latency d = s.latency c

/-- R236 (a), (b): no response field but the payload depends on a secret, and the payload only of a successful ENCRYPT or DECRYPT: for a
fixed record, command word and `STATE` the response word is fixed, and for every other command the whole response. -/
def Obligations.OnlyBlocksLeaveTheEngine : Prop :=
  ∀ (s t : State) (c d : Command), s.CanRun c → t.CanRun d → t.alg = s.alg → t.stateFlag = s.stateFlag →
    d.word = c.word → s.RkShape → t.RkShape →
    ∃ s' t' p q, step s = .next s' ∧ step t = .next t' ∧ s'.rsp = some p ∧ t'.rsp = some q ∧ q.word = p.word ∧
      ((∀ b, decode c ≠ .ok (.encrypt b) ∧ decode c ≠ .ok (.decrypt b)) ∨ p.status ≠ 0x00#8 → q = p)

/-- R21: UNINIT becomes READY only by a successful KEYLOAD, READY becomes UNINIT only by ZEROIZE or reset. -/
def Obligations.StateTransitions : Prop :=
  ∀ s t : State, step s = .next t →
    (s.stateFlag = .uninit → t.stateFlag = .ready →
      ∃ c key, s.CanRun c ∧ decode c = .ok (.keyload key) ∧ key.length ∈ s.alg.keySizes) ∧
    (s.stateFlag = .ready → t.stateFlag = .uninit →
      (∃ rest, s.host = .reset :: rest) ∨ ∃ c, s.CanRun c ∧ decode c = .ok .zeroize)

/-- R22: `RK` is written only by a successful KEYLOAD, by ZEROIZE and by reset. -/
def Obligations.RoundKeyWriters : Prop :=
  ∀ s t : State, step s = .next t → t.rk ≠ s.rk →
    (∃ rest, s.host = .reset :: rest) ∨
    (∃ c, s.CanRun c ∧ (decode c = .ok .zeroize ∨
      ∃ key, decode c = .ok (.keyload key) ∧ key.length ∈ s.alg.keySizes ∧ s.stateFlag = .uninit))

/-- R24, R25: no step, reset included, changes the published constants, the tables or any other field of `Alg`. -/
def Obligations.ConstantsNeverChange : Prop :=
  ∀ s t : State, step s = .next t → t.alg = s.alg

/-- R26, R27: after every command, successful or not, the key buffer, the expansion state, the working block and the round counter are
zero, whatever they held before. -/
def Obligations.CommandsClearTheTransients : Prop :=
  ∀ (i : Instr) (s : State), ∃ t, exec i s = .next t ∧ t.TransientsClear

/-- R23 with R6, R22, R26, R62: every step keeps the invariant. -/
def Obligations.StepKeepsTheInvariant : Prop :=
  ∀ s t : State, s.Inv → step s = .next t → t.Inv

/-- R23: the invariant holds after reset of every instance whose record passes the check, and at `State.reset` (the model's choice of REF16,
log entry 1). -/
def Obligations.ResetMeetsTheInvariant : Prop :=
  (∀ a : Alg, algOk a = true → (State.resetOf a).Inv) ∧ State.reset.Inv

/-- R53: a step of one instance is its own step and touches no other. -/
def Obligations.InstancesAreIndependent : Prop :=
  ∀ (i : Nat) (sys sys' : List State), stepInstance i sys = .next sys' →
    sys'.length = sys.length ∧ (∀ j, j ≠ i → sys'[j]? = sys[j]?) ∧
    (∀ s, sys[i]? = some s → ∃ s', step s = .next s' ∧ sys'[i]? = some s')
end

