-- ==== Sys2Proof/Laws/Circuit.lean ====
section
/-! SUPPORT. The output of a network has the width its check computes. -/

namespace Sys2Proof

@[simp] theorem zeros_length (n : Nat) : (zeros n).length = n := List.length_replicate

namespace Machine

@[simp] theorem toBigEndian_length (n v : Nat) : (toBigEndian n v).length = n := by simp [toBigEndian]

@[simp] theorem rotlBytes_length (n : Nat) (v : Bytes) : (rotlBytes n v).length = v.length := by simp [rotlBytes]

@[simp] theorem rotrBytes_length (n : Nat) (v : Bytes) : (rotrBytes n v).length = v.length := by simp [rotrBytes]

end Machine

theorem Layer.eval_length (l : Layer) (v : Bytes) (w : Nat) (h : l.width v.length = some w) :
    (l.eval v).length = w := by
  cases l with
  | bytes outs =>
    simp only [Layer.width] at h
    split at h <;> simp_all [Layer.eval]
  | rotl n => simp_all [Layer.width, Layer.eval]
  | rotr n => simp_all [Layer.width, Layer.eval]

/-- The layers' output has the width `widthLayers` computes from the input's. -/
theorem evalLayers_length (ls : List Layer) (v : Bytes) (w : Nat) (h : widthLayers ls v.length = some w) :
    (evalLayers ls v).length = w := by
  induction ls generalizing v with
  | nil => simpa [widthLayers, evalLayers] using h
  | cons l ls ih =>
    simp only [widthLayers] at h
    split at h
    next w' hw' =>
      have := ih (l.eval v) (by rwa [Layer.eval_length l v w' hw'])
      simpa [evalLayers] using this
    next => simp at h

end Sys2Proof
end

