-- ==== Sys2Proof/Laws/Trace.lean ====
section
/-! SUPPORT. Values and traces of the combinators of `Traced`. -/

namespace Sys2Proof.Machine

variable {α β : Type}

@[simp] theorem Traced.pure_val (a : α) : (Traced.pure a).val = a := rfl
@[simp] theorem Traced.pure_trace (a : α) : (Traced.pure a).trace = [] := rfl
@[simp] theorem Traced.bind_val (x : Traced α) (f : α → Traced β) : (x.bind f).val = (f x.val).val := rfl
@[simp] theorem Traced.bind_trace (x : Traced α) (f : α → Traced β) :
    (x.bind f).trace = x.trace ++ (f x.val).trace := rfl
@[simp] theorem Traced.map_val (f : α → β) (x : Traced α) : (x.map f).val = f x.val := rfl
@[simp] theorem Traced.map_trace (f : α → β) (x : Traced α) : (x.map f).trace = x.trace := rfl
@[simp] theorem Traced.after_val (es : List Event) (x : Traced α) : (x.after es).val = x.val := rfl
@[simp] theorem Traced.after_trace (es : List Event) (x : Traced α) : (x.after es).trace = es ++ x.trace := rfl
@[simp] theorem Traced.andThen_val (x : Traced α) (es : List Event) : (x.andThen es).val = x.val := rfl
@[simp] theorem Traced.andThen_trace (x : Traced α) (es : List Event) : (x.andThen es).trace = x.trace ++ es := rfl

@[simp] theorem Event.isTable_table (sp : Space) (i : Nat) : (Event.table sp i).isTable = true := rfl
@[simp] theorem Event.isTable_rkRead (i : Nat) : (Event.rkRead i).isTable = false := rfl
@[simp] theorem Event.isTable_rkWrite (i : Nat) : (Event.rkWrite i).isTable = false := rfl
@[simp] theorem Event.isTable_branch (p : Site) (b : Bool) : (Event.branch p b).isTable = false := rfl
@[simp] theorem Event.isRk_table (sp : Space) (i : Nat) : (Event.table sp i).isRk = false := rfl
@[simp] theorem Event.isRk_rkRead (i : Nat) : (Event.rkRead i).isRk = true := rfl
@[simp] theorem Event.isRk_rkWrite (i : Nat) : (Event.rkWrite i).isRk = true := rfl
@[simp] theorem Event.isRk_branch (p : Site) (b : Bool) : (Event.branch p b).isRk = false := rfl

end Sys2Proof.Machine
end

