-- ==== Sys2Proof/Laws/Engine.lean ====
section
/-! SUPPORT. The table law entry by entry, lengths of what the four components compute (R85, R103, R128), and which kind of event each produces. -/

namespace Sys2Proof.Machine

/-- A byte of a vector, read off its integer. -/
theorem byteAt_toNat (v : Bytes) (i : Nat) : (byteAt v i).toNat = ofLittleEndian v / 256 ^ i % 256 := by
  induction v generalizing i with
  | nil => simp [byteAt, ofLittleEndian]
  | cons b bs ih =>
    have hb := b.isLt
    cases i with
    | zero =>
      simp only [byteAt, List.getD_cons_zero, ofLittleEndian, Nat.pow_zero, Nat.div_one]
      omega
    | succ i =>
      have hd : (b.toNat + 256 * ofLittleEndian bs) / 256 ^ (i + 1) = ofLittleEndian bs / 256 ^ i := by
        rw [Nat.pow_succ', ← Nat.div_div_eq_div_mul]
        congr 1
        omega
      simpa [byteAt, ofLittleEndian, hd] using ih i

theorem invertsFrom_iff (inv : Bytes) (i : Nat) (ys : Bytes) :
    invertsFrom (ofLittleEndian inv) i ys = true ↔ ∀ j < ys.length, (byteAt inv (byteAt ys j).toNat).toNat = i + j := by
  induction ys generalizing i with
  | nil => simp [invertsFrom]
  | cons y ys ih =>
    simp only [invertsFrom, Bool.and_eq_true, decide_eq_true_eq, ih, ← byteAt_toNat, List.length_cons]
    constructor
    · rintro ⟨h0, h⟩ j hj
      cases j with
      | zero => simpa [byteAt] using h0
      | succ j => simpa [byteAt, Nat.add_assoc, Nat.add_comm 1 j] using h j (by omega)
    · intro h
      refine ⟨by simpa [byteAt] using h 0 (by omega), fun j hj => ?_⟩
      simpa [byteAt, Nat.add_assoc, Nat.add_comm 1 j] using h (j + 1) (by omega)

/-- The check of the tables says R7 entry by entry: 256 entries each, and `SBOX_INV_TABLE[SBOX_TABLE[x]] = x` for every byte. -/
theorem tablesOk_iff (a : Alg) : tablesOk a = true ↔
    a.sbox.length = 256 ∧ a.sboxInv.length = 256 ∧ ∀ x : Byte, byteAt a.sboxInv (byteAt a.sbox x.toNat).toNat = x := by
  simp only [tablesOk, Bool.and_eq_true, decide_eq_true_eq, invertsFrom_iff, Nat.zero_add, and_assoc]
  refine and_congr_right fun h => and_congr_right fun _ => ⟨fun hi x => ?_, fun hx j hj => ?_⟩
  · exact BitVec.eq_of_toNat_eq (hi x.toNat (h ▸ x.isLt))
  · have := congrArg BitVec.toNat (hx (BitVec.ofNat 8 j))
    rwa [BitVec.toNat_ofNat, Nat.mod_eq_of_lt (by omega)] at this

/-- A checked record's tables meet R7 (R6(g)). -/
theorem tables_of_algOk {a : Alg} (ha : algOk a = true) :
    a.sbox.length = 256 ∧ a.sboxInv.length = 256 ∧ ∀ x : Byte, byteAt a.sboxInv (byteAt a.sbox x.toNat).toNat = x := by
  rw [← tablesOk_iff]
  simp only [algOk, Bool.and_eq_true] at ha
  exact ha.1.2

@[simp] theorem substituteEach_length (f : Byte → Traced Byte) (v : Bytes) :
    (substituteEach f v).val.length = v.length := by
  induction v with
  | nil => rfl
  | cons x xs ih => simp [substituteEach, ih]

@[simp] theorem subBytes_length (a : Alg) (v : Bytes) : (subBytes a v).val.length = v.length :=
  substituteEach_length _ v

@[simp] theorem subBytesInv_length (a : Alg) (v : Bytes) : (subBytesInv a v).val.length = v.length :=
  substituteEach_length _ v

/-- The four reversible operations keep the block's size (R6(f)). -/
theorem keymix_length {a : Alg} (ha : algOk a = true) {x k : Bytes} (hx : x.length = a.blockSize)
    (hk : k.length = a.rkBytes) : (keymix a x k).length = a.blockSize :=
  evalLayers_length _ _ _ (by simp [algOk, roundWidthsOk] at ha; simp [hx, hk, ha])

theorem keymixInv_length {a : Alg} (ha : algOk a = true) {x k : Bytes} (hx : x.length = a.blockSize)
    (hk : k.length = a.rkBytes) : (keymixInv a x k).length = a.blockSize :=
  evalLayers_length _ _ _ (by simp [algOk, roundWidthsOk] at ha; simp [hx, hk, ha])

theorem diffuse_length {a : Alg} (ha : algOk a = true) {x : Bytes} (hx : x.length = a.blockSize) :
    (diffuse a x).length = a.blockSize :=
  evalLayers_length _ _ _ (by simp [algOk, roundWidthsOk] at ha; simp [hx, ha])

theorem diffuseInv_length {a : Alg} (ha : algOk a = true) {x : Bytes} (hx : x.length = a.blockSize) :
    (diffuseInv a x).length = a.blockSize :=
  evalLayers_length _ _ _ (by simp [algOk, roundWidthsOk] at ha; simp [hx, ha])

theorem stageForward_length {a : Alg} (ha : algOk a = true) {x k : Bytes} (hx : x.length = a.blockSize)
    (hk : k.length = a.rkBytes) (last : Bool) (s : Stage) :
    (stageForward a k last x s).val.length = a.blockSize := by
  cases s with
  | K => exact keymix_length ha hx hk
  | S => simp [stageForward, hx]
  | D => simp only [stageForward]; split <;> simp [hx, diffuse_length ha hx]

theorem stageInverse_length {a : Alg} (ha : algOk a = true) {x k : Bytes} (hx : x.length = a.blockSize)
    (hk : k.length = a.rkBytes) (last : Bool) (s : Stage) :
    (stageInverse a k last x s).val.length = a.blockSize := by
  cases s with
  | K => exact keymixInv_length ha hx hk
  | S => simp [stageInverse, hx]
  | D => simp only [stageInverse]; split <;> simp [hx, diffuseInv_length ha hx]

/-- A stage loop keeps the block's size when each stage does. -/
theorem runStages_length {n : Nat} (f : Bytes → Stage → Traced Bytes)
    (hf : ∀ x s, x.length = n → (f x s).val.length = n) (ss : List Stage) (x : Bytes) (hx : x.length = n) :
    (runStages f ss x).val.length = n := by
  induction ss generalizing x with
  | nil => exact hx
  | cons s ss ih => simpa [runStages] using ih _ (hf x s hx)

theorem evalKsLayer_length (a : Alg) (l : KsLayer) (v : Bytes) (w : Nat) (h : l.width v.length = some w) :
    (evalKsLayer a l v).val.length = w := by
  cases l with
  | net l => exact Layer.eval_length l v w h
  | subst lo n =>
    simp only [KsLayer.width] at h
    split at h
    · simp [evalKsLayer, subWord] at h ⊢
      omega
    · simp at h

theorem evalKsLayers_length (a : Alg) (ls : List KsLayer) (v : Bytes) (w : Nat)
    (h : widthKsLayers ls v.length = some w) : (evalKsLayers a ls v).val.length = w := by
  induction ls generalizing v with
  | nil => simpa [widthKsLayers, evalKsLayers] using h
  | cons l ls ih =>
    simp only [widthKsLayers] at h
    split at h
    next w' hw' =>
      have hl := evalKsLayer_length a l v w' hw'
      simpa [evalKsLayers] using ih (evalKsLayer a l v).val (by rwa [hl])
    next => simp at h

/-- The rule selected for a length that has one is a rule of that length (R105). -/
theorem selectExpansion_mem {L : Nat} {es : List Expansion} (h : L ∈ es.map Expansion.keyBytes) :
    (selectExpansion L es).val ∈ es ∧ (selectExpansion L es).val.keyBytes = L := by
  induction es with
  | nil => simp at h
  | cons e es ih =>
    unfold selectExpansion
    by_cases he : L = e.keyBytes
    · simp [he]
    · have := ih (by simpa [he] using h)
      simpa [he] using ⟨.inr this.1, this.2⟩

/-- An expansion state that the steps from `i` on can take: their circuits fit its bytes, one after the other (R6(e)). -/
def FitsSteps (a : Alg) (i : Nat) (ks : KsState) : Prop :=
  ks.steps.length = a.roundCount ∧ (stateWidths a.rkBytes (ks.steps.drop i) ks.bytes.length).isSome = true

/-- KS_INIT gives a state that all the steps can take, for every valid key length (R6(e)). -/
theorem ksInit_fits {a : Alg} (ha : algOk a = true) {key : Bytes} (hk : key.length ∈ a.keySizes) :
    FitsSteps a 0 (ksInit a key).val := by
  have he : a.expansions.map Expansion.keyBytes = a.keySizes ∧
      ∀ e ∈ a.expansions, e.steps.length = a.roundCount ∧ (e.stateWidths a.rkBytes).isSome = true := by
    simp only [algOk, expansionOk, Bool.and_eq_true, List.all_eq_true, decide_eq_true_eq] at ha
    exact ha.1.1.2
  obtain ⟨hmem, hlen⟩ := selectExpansion_mem (he.1 ▸ hk)
  obtain ⟨hsteps, hw⟩ := he.2 _ hmem
  refine ⟨by simpa [ksInit] using hsteps, ?_⟩
  unfold Expansion.stateWidths at hw
  split at hw
  next w hinit =>
    have hb := evalKsLayers_length a _ key w (by rwa [hlen] at hinit)
    simpa [ksInit, hb] using hw
  next => simp at hw

/-- One step of the expansion gives a round key of RK_BYTES bytes and a state that the further steps can take (R6(e)). -/
theorem ksStep_fits {a : Alg} {i : Nat} (hi : i < a.roundCount) {ks : KsState} (hks : FitsSteps a i ks) :
    (ksStep a i ks).val.1.length = a.rkBytes ∧ FitsSteps a (i + 1) (ksStep a i ks).val.2 := by
  obtain ⟨hlen, hw⟩ := hks
  have hi' : i < ks.steps.length := by omega
  rw [List.drop_eq_getElem_cons hi', stateWidths] at hw
  split at hw
  next o ho =>
    split at hw
    next hrk =>
      have hb : (evalKsLayers a (ks.steps.getD i []) ks.bytes).val.length = o :=
        evalKsLayers_length a _ _ _ (by rwa [List.getD_eq_getElem _ _ hi'])
      refine ⟨by simpa [ksStep, hb, -List.getD_eq_getElem?_getD] using hrk, hlen, ?_⟩
      simpa [ksStep, hb, -List.getD_eq_getElem?_getD] using hw
    next => simp at hw
  next => simp at hw

/-- The expansion's loop gives one key per iteration (R102). -/
theorem expandLoop_count (a : Alg) (n i : Nat) (ks : KsState) : (expandLoop a n i ks).val.1.length = n := by
  induction n generalizing i ks with
  | zero => rfl
  | succ n ih => simp [expandLoop, ih]

/-- The expansion has exactly `N` round keys, invariant (a) of R103. -/
@[simp] theorem expand_count (a : Alg) (key : Bytes) : (expand a key).val.1.length = a.roundCount := by
  simp [expand, expandLoop_count]

theorem expandLoop_lengths {a : Alg} (n i : Nat) (hi : i + n ≤ a.roundCount) (ks : KsState) (hks : FitsSteps a i ks) :
    ∀ k ∈ (expandLoop a n i ks).val.1, k.length = a.rkBytes := by
  induction n generalizing i ks with
  | zero => simp [expandLoop]
  | succ n ih =>
    have hs := ksStep_fits (a := a) (i := i) (by omega) hks
    simp only [expandLoop, Traced.after_val, Traced.bind_val, Traced.map_val, List.mem_cons, forall_eq_or_imp]
    exact ⟨hs.1, ih (i + 1) (by omega) _ hs.2⟩

/-- Every round key of a valid key has RK_BYTES bytes (R103). -/
theorem expand_lengths {a : Alg} (ha : algOk a = true) {key : Bytes} (hk : key.length ∈ a.keySizes) :
    ∀ k ∈ (expand a key).val.1, k.length = a.rkBytes := by
  simpa [expand] using expandLoop_lengths a.roundCount 0 (by omega) _ (ksInit_fits ha hk)

/-- `derive` answers exactly for the valid lengths, with `expand`'s keys (R101, R102). -/
theorem derive_val (a : Alg) (key : Bytes) :
    (derive a key).val = if key.length ∈ a.keySizes then some (expand a key).val.1 else none := by
  unfold derive validKeySize
  by_cases h : key.length ∈ a.keySizes <;> simp [h]

/-- A register of a well-shaped file holds RK_BYTES bytes (R22). -/
theorem roundKey_length {a : Alg} {rk : List Bytes} (hlen : rk.length = a.roundCount)
    (hk : ∀ k ∈ rk, k.length = a.rkBytes) {i : Nat} (hi : i < a.roundCount) :
    (roundKey rk i).length = a.rkBytes := by
  unfold roundKey
  rw [List.getD_eq_getElem _ _ (by omega)]
  exact hk _ (List.getElem_mem _)

/-! No component touches a round-key register: `RK` events come from the commands' own loops (R40 space 3). -/

theorem scanTable_noRk (sp : Space) (x : Byte) (i : Nat) (ts : Bytes) (acc : Byte) :
    ∀ e ∈ (scanTable sp x i ts acc).trace, e.isRk = false := by
  induction ts generalizing i acc with
  | nil => simp [scanTable]
  | cons t ts ih => simpa [scanTable] using ih _ _

theorem substituteVia_noRk (a : Alg) (sp : Space) (x : Byte) :
    ∀ e ∈ (substituteVia a sp x).trace, e.isRk = false := by
  unfold substituteVia
  split
  · exact scanTable_noRk _ _ _ _ _
  · simp

theorem substituteEach_noRk (f : Byte → Traced Byte) (hf : ∀ x, ∀ e ∈ (f x).trace, e.isRk = false) (v : Bytes) :
    ∀ e ∈ (substituteEach f v).trace, e.isRk = false := by
  induction v with
  | nil => simp [substituteEach]
  | cons x xs ih =>
    intro e he
    simp only [substituteEach, Traced.after_trace, Traced.bind_trace, Traced.map_trace, List.mem_append,
      List.mem_singleton] at he
    rcases he with rfl | he | he
    · rfl
    · exact hf x e he
    · exact ih e he

theorem subBytes_noRk (a : Alg) (v : Bytes) : ∀ e ∈ (subBytes a v).trace, e.isRk = false :=
  substituteEach_noRk _ (substituteVia_noRk a _) v

theorem subBytesInv_noRk (a : Alg) (v : Bytes) : ∀ e ∈ (subBytesInv a v).trace, e.isRk = false :=
  substituteEach_noRk _ (substituteVia_noRk a _) v

theorem evalKsLayers_noRk (a : Alg) (ls : List KsLayer) (v : Bytes) :
    ∀ e ∈ (evalKsLayers a ls v).trace, e.isRk = false := by
  induction ls generalizing v with
  | nil => simp [evalKsLayers]
  | cons l ls ih =>
    intro e he
    simp only [evalKsLayers, Traced.bind_trace, List.mem_append] at he
    rcases he with he | he
    · cases l with
      | net l => simp [evalKsLayer] at he
      | subst lo n => exact subBytes_noRk a _ e (by simpa [evalKsLayer, subWord] using he)
    · exact ih _ e he

theorem selectExpansion_noRk (L : Nat) (es : List Expansion) :
    ∀ e ∈ (selectExpansion L es).trace, e.isRk = false := by
  induction es with
  | nil => simp [selectExpansion]
  | cons e es ih =>
    unfold selectExpansion
    split
    · simp
    · simpa using ih

theorem expandLoop_noRk (a : Alg) (n i : Nat) (ks : KsState) :
    ∀ e ∈ (expandLoop a n i ks).trace, e.isRk = false := by
  induction n generalizing i ks with
  | zero => simp [expandLoop]
  | succ n ih =>
    intro e he
    simp only [expandLoop, ksStep, Traced.after_trace, Traced.bind_trace, Traced.map_trace, List.mem_append,
      List.mem_singleton] at he
    rcases he with rfl | he | he
    · rfl
    · exact evalKsLayers_noRk _ _ _ e he
    · exact ih _ _ e he

theorem expand_noRk (a : Alg) (key : Bytes) : ∀ e ∈ (expand a key).trace, e.isRk = false := by
  intro e he
  simp only [expand, ksInit, Traced.bind_trace, Traced.map_trace, List.mem_append] at he
  rcases he with (he | he) | he
  · exact selectExpansion_noRk _ _ e he
  · exact evalKsLayers_noRk _ _ _ e he
  · exact expandLoop_noRk _ _ _ _ e he

theorem stageForward_noRk (a : Alg) (k : Bytes) (last : Bool) (x : Bytes) (s : Stage) :
    ∀ e ∈ (stageForward a k last x s).trace, e.isRk = false := by
  intro e he
  cases s <;> simp [stageForward, lastRoundEvent] at he
  · rcases he with rfl | rfl | rfl <;> rfl
  · rcases he with rfl | rfl | he | rfl <;> first | rfl | exact subBytes_noRk _ _ e he
  · rcases he with rfl | rfl | rfl | rfl <;> rfl

theorem stageInverse_noRk (a : Alg) (k : Bytes) (last : Bool) (x : Bytes) (s : Stage) :
    ∀ e ∈ (stageInverse a k last x s).trace, e.isRk = false := by
  intro e he
  cases s <;> simp [stageInverse, lastRoundEvent] at he
  · rcases he with rfl | rfl | rfl <;> rfl
  · rcases he with rfl | rfl | he | rfl <;> first | rfl | exact subBytesInv_noRk _ _ e he
  · rcases he with rfl | rfl | rfl | rfl <;> rfl

theorem runStages_noRk (f : Bytes → Stage → Traced Bytes) (hf : ∀ x s, ∀ e ∈ (f x s).trace, e.isRk = false)
    (ss : List Stage) (x : Bytes) : ∀ e ∈ (runStages f ss x).trace, e.isRk = false := by
  induction ss generalizing x with
  | nil => simp [runStages]
  | cons s ss ih =>
    intro e he
    simp only [runStages, Traced.after_trace, Traced.bind_trace, List.mem_append, List.mem_singleton] at he
    rcases he with rfl | he | he
    · rfl
    · exact hf _ _ e he
    · exact ih _ e he

theorem filter_isRk_nil {l : List Event} (h : ∀ e ∈ l, e.isRk = false) : l.filter Event.isRk = [] := by
  simpa [List.filter_eq_nil_iff] using h

@[simp] theorem expand_rkEvents (a : Alg) (key : Bytes) : (expand a key).trace.filter Event.isRk = [] :=
  filter_isRk_nil (expand_noRk a key)

@[simp] theorem forward_rkEvents (a : Alg) (b k : Bytes) (last : Bool) :
    (forward a b k last).trace.filter Event.isRk = [] :=
  filter_isRk_nil (runStages_noRk _ (stageForward_noRk a k last) _ _)

@[simp] theorem inverse_rkEvents (a : Alg) (c k : Bytes) (last : Bool) :
    (inverse a c k last).trace.filter Event.isRk = [] :=
  filter_isRk_nil (runStages_noRk _ (stageInverse_noRk a k last) _ _)

/-- The forward loop from round `r` on reads the registers `r` to `r + n - 1` in ascending order (R144). -/
theorem encryptLoop_rkEvents (a : Alg) (rk : List Bytes) (n r : Nat) (x : Bytes) :
    (encryptLoop a rk n r x).trace.filter Event.isRk = (List.range' r n).map Event.rkRead := by
  induction n generalizing r x with
  | zero => rfl
  | succ n ih => simp [encryptLoop, ih, List.range'_succ, List.filter_cons]

/-- The backward loop over `n` rounds reads the registers `n - 1` to 0 in descending order (R145). -/
theorem decryptLoop_rkEvents (a : Alg) (rk : List Bytes) (n : Nat) (x : Bytes) :
    (decryptLoop a rk n (n - 1) x).trace.filter Event.isRk = ((List.range n).map Event.rkRead).reverse := by
  induction n generalizing x with
  | zero => rfl
  | succ n ih =>
    have := ih (inverse a x (roundKey rk n) (isLastRound a n)).val
    simp only [decryptLoop, Nat.add_sub_cancel, Traced.after_trace, Traced.bind_trace, List.filter_append,
      inverse_rkEvents, this, List.range_succ]
    simp [List.filter_cons]

/-- The loops keep the block's size on a well-shaped register file. -/
theorem encryptLoop_length {a : Alg} (ha : algOk a = true) {rk : List Bytes} (h1 : rk.length = a.roundCount)
    (h2 : ∀ k ∈ rk, k.length = a.rkBytes) (n r : Nat) (x : Bytes) (hr : r + n ≤ a.roundCount)
    (hx : x.length = a.blockSize) : (encryptLoop a rk n r x).val.length = a.blockSize := by
  induction n generalizing r x with
  | zero => exact hx
  | succ n ih =>
    simp only [encryptLoop, Traced.after_val, Traced.bind_val]
    exact ih _ _ (by omega)
      (runStages_length _ (fun y s hy => stageForward_length ha hy (roundKey_length h1 h2 (by omega)) _ s) _ _ hx)

theorem decryptLoop_length {a : Alg} (ha : algOk a = true) {rk : List Bytes} (h1 : rk.length = a.roundCount)
    (h2 : ∀ k ∈ rk, k.length = a.rkBytes) (n : Nat) (x : Bytes) (hr : n ≤ a.roundCount)
    (hx : x.length = a.blockSize) : (decryptLoop a rk n (n - 1) x).val.length = a.blockSize := by
  induction n generalizing x with
  | zero => exact hx
  | succ n ih =>
    simp only [decryptLoop, Traced.after_val, Traced.bind_val, Nat.add_sub_cancel]
    exact ih _ (by omega)
      (runStages_length _ (fun y s hy => stageInverse_length ha hy (roundKey_length h1 h2 (by omega)) _ s) _ _ hx)

end Sys2Proof.Machine
end

