-- ==== Sys2Proof/Laws/State.lean ====
section
/-! SUPPORT. One lemma per field per update of the state. -/

namespace Sys2Proof.Machine

@[simp] theorem State.start_alg (s : State) : s.start.alg = s.alg := rfl
@[simp] theorem State.start_stateFlag (s : State) : s.start.stateFlag = s.stateFlag := rfl
@[simp] theorem State.start_rk (s : State) : s.start.rk = s.rk := rfl
@[simp] theorem State.start_kb (s : State) : s.start.kb = s.kb := rfl
@[simp] theorem State.start_ks (s : State) : s.start.ks = s.ks := rfl
@[simp] theorem State.start_wb (s : State) : s.start.wb = s.wb := rfl
@[simp] theorem State.start_r (s : State) : s.start.r = s.r := rfl
@[simp] theorem State.start_trace (s : State) : s.start.trace = [] := rfl
@[simp] theorem State.start_cmd (s : State) : s.start.cmd = s.cmd := rfl
@[simp] theorem State.start_rsp (s : State) : s.start.rsp = s.rsp := rfl
@[simp] theorem State.start_host (s : State) : s.start.host = s.host := rfl

@[simp] theorem State.emit_alg (s : State) (es : List Event) : (s.emit es).alg = s.alg := rfl
@[simp] theorem State.emit_stateFlag (s : State) (es : List Event) : (s.emit es).stateFlag = s.stateFlag := rfl
@[simp] theorem State.emit_rk (s : State) (es : List Event) : (s.emit es).rk = s.rk := rfl
@[simp] theorem State.emit_kb (s : State) (es : List Event) : (s.emit es).kb = s.kb := rfl
@[simp] theorem State.emit_ks (s : State) (es : List Event) : (s.emit es).ks = s.ks := rfl
@[simp] theorem State.emit_wb (s : State) (es : List Event) : (s.emit es).wb = s.wb := rfl
@[simp] theorem State.emit_r (s : State) (es : List Event) : (s.emit es).r = s.r := rfl
@[simp] theorem State.emit_trace (s : State) (es : List Event) : (s.emit es).trace = s.trace ++ es := rfl
@[simp] theorem State.emit_cmd (s : State) (es : List Event) : (s.emit es).cmd = s.cmd := rfl
@[simp] theorem State.emit_rsp (s : State) (es : List Event) : (s.emit es).rsp = s.rsp := rfl
@[simp] theorem State.emit_host (s : State) (es : List Event) : (s.emit es).host = s.host := rfl

@[simp] theorem State.decision_alg (s : State) (p : Site) (b : Bool) : (s.decision p b).alg = s.alg := rfl
@[simp] theorem State.decision_stateFlag (s : State) (p : Site) (b : Bool) : (s.decision p b).stateFlag = s.stateFlag := rfl
@[simp] theorem State.decision_rk (s : State) (p : Site) (b : Bool) : (s.decision p b).rk = s.rk := rfl
@[simp] theorem State.decision_kb (s : State) (p : Site) (b : Bool) : (s.decision p b).kb = s.kb := rfl
@[simp] theorem State.decision_ks (s : State) (p : Site) (b : Bool) : (s.decision p b).ks = s.ks := rfl
@[simp] theorem State.decision_wb (s : State) (p : Site) (b : Bool) : (s.decision p b).wb = s.wb := rfl
@[simp] theorem State.decision_r (s : State) (p : Site) (b : Bool) : (s.decision p b).r = s.r := rfl
@[simp] theorem State.decision_trace (s : State) (p : Site) (b : Bool) : (s.decision p b).trace = s.trace ++ [.branch p b] := rfl
@[simp] theorem State.decision_cmd (s : State) (p : Site) (b : Bool) : (s.decision p b).cmd = s.cmd := rfl
@[simp] theorem State.decision_rsp (s : State) (p : Site) (b : Bool) : (s.decision p b).rsp = s.rsp := rfl
@[simp] theorem State.decision_host (s : State) (p : Site) (b : Bool) : (s.decision p b).host = s.host := rfl

@[simp] theorem State.writeRk_alg (s : State) (i : Nat) (v : Bytes) : (s.writeRk i v).alg = s.alg := rfl
@[simp] theorem State.writeRk_stateFlag (s : State) (i : Nat) (v : Bytes) : (s.writeRk i v).stateFlag = s.stateFlag := rfl
@[simp] theorem State.writeRk_rk (s : State) (i : Nat) (v : Bytes) : (s.writeRk i v).rk = s.rk.set i v := rfl
@[simp] theorem State.writeRk_kb (s : State) (i : Nat) (v : Bytes) : (s.writeRk i v).kb = s.kb := rfl
@[simp] theorem State.writeRk_ks (s : State) (i : Nat) (v : Bytes) : (s.writeRk i v).ks = s.ks := rfl
@[simp] theorem State.writeRk_wb (s : State) (i : Nat) (v : Bytes) : (s.writeRk i v).wb = s.wb := rfl
@[simp] theorem State.writeRk_r (s : State) (i : Nat) (v : Bytes) : (s.writeRk i v).r = s.r := rfl
@[simp] theorem State.writeRk_trace (s : State) (i : Nat) (v : Bytes) : (s.writeRk i v).trace = s.trace ++ [.rkWrite i] := rfl
@[simp] theorem State.writeRk_cmd (s : State) (i : Nat) (v : Bytes) : (s.writeRk i v).cmd = s.cmd := rfl
@[simp] theorem State.writeRk_rsp (s : State) (i : Nat) (v : Bytes) : (s.writeRk i v).rsp = s.rsp := rfl
@[simp] theorem State.writeRk_host (s : State) (i : Nat) (v : Bytes) : (s.writeRk i v).host = s.host := rfl

@[simp] theorem State.clearTransients_alg (s : State) : s.clearTransients.alg = s.alg := rfl
@[simp] theorem State.clearTransients_stateFlag (s : State) : s.clearTransients.stateFlag = s.stateFlag := rfl
@[simp] theorem State.clearTransients_rk (s : State) : s.clearTransients.rk = s.rk := rfl
@[simp] theorem State.clearTransients_kb (s : State) : s.clearTransients.kb = zeros (keyBufferBytes s.alg) := rfl
@[simp] theorem State.clearTransients_ks (s : State) : s.clearTransients.ks = zeros (expansionBufferBytes s.alg) := rfl
@[simp] theorem State.clearTransients_wb (s : State) : s.clearTransients.wb = zeros s.alg.blockSize := rfl
@[simp] theorem State.clearTransients_r (s : State) : s.clearTransients.r = 0 := rfl
@[simp] theorem State.clearTransients_trace (s : State) : s.clearTransients.trace = s.trace := rfl
@[simp] theorem State.clearTransients_cmd (s : State) : s.clearTransients.cmd = s.cmd := rfl
@[simp] theorem State.clearTransients_rsp (s : State) : s.clearTransients.rsp = s.rsp := rfl
@[simp] theorem State.clearTransients_host (s : State) : s.clearTransients.host = s.host := rfl

@[simp] theorem State.respond_alg (s : State) (st : Status) (q : Bytes) : (s.respond st q).alg = s.alg := rfl
@[simp] theorem State.respond_stateFlag (s : State) (st : Status) (q : Bytes) : (s.respond st q).stateFlag = s.stateFlag := rfl
@[simp] theorem State.respond_rk (s : State) (st : Status) (q : Bytes) : (s.respond st q).rk = s.rk := rfl
@[simp] theorem State.respond_kb (s : State) (st : Status) (q : Bytes) : (s.respond st q).kb = zeros (keyBufferBytes s.alg) := rfl
@[simp] theorem State.respond_ks (s : State) (st : Status) (q : Bytes) : (s.respond st q).ks = zeros (expansionBufferBytes s.alg) := rfl
@[simp] theorem State.respond_wb (s : State) (st : Status) (q : Bytes) : (s.respond st q).wb = zeros s.alg.blockSize := rfl
@[simp] theorem State.respond_r (s : State) (st : Status) (q : Bytes) : (s.respond st q).r = 0 := rfl
@[simp] theorem State.respond_trace (s : State) (st : Status) (q : Bytes) : (s.respond st q).trace = s.trace := rfl
@[simp] theorem State.respond_cmd (s : State) (st : Status) (q : Bytes) : (s.respond st q).cmd = s.cmd := rfl
@[simp] theorem State.respond_rsp (s : State) (st : Status) (q : Bytes) : (s.respond st q).rsp = some ⟨responseWord st s.stateFlag q.length, q⟩ := rfl
@[simp] theorem State.respond_host (s : State) (st : Status) (q : Bytes) : (s.respond st q).host = s.host := rfl

@[simp] theorem State.raise_alg (s : State) (e : Error) : (s.raise e).alg = s.alg := rfl
@[simp] theorem State.raise_stateFlag (s : State) (e : Error) : (s.raise e).stateFlag = s.stateFlag := rfl
@[simp] theorem State.raise_rk (s : State) (e : Error) : (s.raise e).rk = s.rk := rfl
@[simp] theorem State.raise_kb (s : State) (e : Error) : (s.raise e).kb = zeros (keyBufferBytes s.alg) := rfl
@[simp] theorem State.raise_ks (s : State) (e : Error) : (s.raise e).ks = zeros (expansionBufferBytes s.alg) := rfl
@[simp] theorem State.raise_wb (s : State) (e : Error) : (s.raise e).wb = zeros s.alg.blockSize := rfl
@[simp] theorem State.raise_r (s : State) (e : Error) : (s.raise e).r = 0 := rfl
@[simp] theorem State.raise_trace (s : State) (e : Error) : (s.raise e).trace = s.trace := rfl
@[simp] theorem State.raise_cmd (s : State) (e : Error) : (s.raise e).cmd = s.cmd := rfl
@[simp] theorem State.raise_rsp (s : State) (e : Error) : (s.raise e).rsp = some ⟨responseWord e.status s.stateFlag 0, []⟩ := rfl
@[simp] theorem State.raise_host (s : State) (e : Error) : (s.raise e).host = s.host := rfl

@[simp] theorem State.accept_alg (s : State) : s.accept.alg = s.alg := rfl
@[simp] theorem State.accept_stateFlag (s : State) : s.accept.stateFlag = s.stateFlag := rfl
@[simp] theorem State.accept_rk (s : State) : s.accept.rk = s.rk := rfl
@[simp] theorem State.accept_kb (s : State) : s.accept.kb = s.kb := rfl
@[simp] theorem State.accept_ks (s : State) : s.accept.ks = s.ks := rfl
@[simp] theorem State.accept_wb (s : State) : s.accept.wb = s.wb := rfl
@[simp] theorem State.accept_r (s : State) : s.accept.r = s.r := rfl
@[simp] theorem State.accept_trace (s : State) : s.accept.trace = s.trace := rfl
@[simp] theorem State.accept_cmd (s : State) : s.accept.cmd = none := rfl
@[simp] theorem State.accept_rsp (s : State) : s.accept.rsp = s.rsp := rfl
@[simp] theorem State.accept_host (s : State) : s.accept.host = s.host := rfl

@[simp] theorem State.offer_alg (s : State) (c : Command) : (s.offer c).alg = s.alg := rfl
@[simp] theorem State.offer_stateFlag (s : State) (c : Command) : (s.offer c).stateFlag = s.stateFlag := rfl
@[simp] theorem State.offer_rk (s : State) (c : Command) : (s.offer c).rk = s.rk := rfl
@[simp] theorem State.offer_kb (s : State) (c : Command) : (s.offer c).kb = s.kb := rfl
@[simp] theorem State.offer_ks (s : State) (c : Command) : (s.offer c).ks = s.ks := rfl
@[simp] theorem State.offer_wb (s : State) (c : Command) : (s.offer c).wb = s.wb := rfl
@[simp] theorem State.offer_r (s : State) (c : Command) : (s.offer c).r = s.r := rfl
@[simp] theorem State.offer_trace (s : State) (c : Command) : (s.offer c).trace = s.trace := rfl
@[simp] theorem State.offer_cmd (s : State) (c : Command) : (s.offer c).cmd = some c := rfl
@[simp] theorem State.offer_rsp (s : State) (c : Command) : (s.offer c).rsp = none := rfl
@[simp] theorem State.offer_host (s : State) (c : Command) : (s.offer c).host = s.host.dropWhile (· == .reset) := rfl

@[simp] theorem State.resetOf_alg (a : Alg) : (State.resetOf a).alg = a := rfl
@[simp] theorem State.resetOf_stateFlag (a : Alg) : (State.resetOf a).stateFlag = .uninit := rfl
@[simp] theorem State.resetOf_rk (a : Alg) : (State.resetOf a).rk = zeroKeys a := rfl
@[simp] theorem State.resetOf_kb (a : Alg) : (State.resetOf a).kb = zeros (keyBufferBytes a) := rfl
@[simp] theorem State.resetOf_ks (a : Alg) : (State.resetOf a).ks = zeros (expansionBufferBytes a) := rfl
@[simp] theorem State.resetOf_wb (a : Alg) : (State.resetOf a).wb = zeros a.blockSize := rfl
@[simp] theorem State.resetOf_r (a : Alg) : (State.resetOf a).r = 0 := rfl
@[simp] theorem State.resetOf_trace (a : Alg) : (State.resetOf a).trace = [] := rfl
@[simp] theorem State.resetOf_cmd (a : Alg) : (State.resetOf a).cmd = none := rfl
@[simp] theorem State.resetOf_rsp (a : Alg) : (State.resetOf a).rsp = none := rfl
@[simp] theorem State.resetOf_host (a : Alg) : (State.resetOf a).host = [] := rfl

@[simp] theorem State.assertReset_alg (s : State) : s.assertReset.alg = s.alg := rfl
@[simp] theorem State.assertReset_stateFlag (s : State) : s.assertReset.stateFlag = .uninit := rfl
@[simp] theorem State.assertReset_rk (s : State) : s.assertReset.rk = zeroKeys s.alg := rfl
@[simp] theorem State.assertReset_kb (s : State) : s.assertReset.kb = zeros (keyBufferBytes s.alg) := rfl
@[simp] theorem State.assertReset_ks (s : State) : s.assertReset.ks = zeros (expansionBufferBytes s.alg) := rfl
@[simp] theorem State.assertReset_wb (s : State) : s.assertReset.wb = zeros s.alg.blockSize := rfl
@[simp] theorem State.assertReset_r (s : State) : s.assertReset.r = 0 := rfl
@[simp] theorem State.assertReset_trace (s : State) : s.assertReset.trace = [] := rfl
@[simp] theorem State.assertReset_cmd (s : State) : s.assertReset.cmd = none := rfl
@[simp] theorem State.assertReset_rsp (s : State) : s.assertReset.rsp = none := rfl
@[simp] theorem State.assertReset_host (s : State) : s.assertReset.host = s.host := rfl

end Sys2Proof.Machine
end

