-- ==== Sys2Proof/Laws/Ops.lean ====
section
/-! SUPPORT. What each shared operation does, said once: the write loop, the key load, the block command's cases, the channel's turns,
and that the round-key file keeps its shape. -/

namespace Sys2Proof.Machine

/-- The events of the write loop over registers `i` to `i + n - 1`. -/
def writeEvents (i : Nat) : Nat → List Event
  | 0 => [.branch .rkWriteLoop false]
  | n + 1 => .branch .rkWriteLoop true :: .rkWrite i :: writeEvents (i + 1) n

/-- Registers `i` on replaced in order by `ks`, as far as the file goes. -/
def overwrite (i : Nat) : List Bytes → List Bytes → List Bytes
  | [], rk => rk
  | k :: ks, rk => overwrite (i + 1) ks (rk.set i k)

/-- The write loop changes the trace and the registers, nothing else. -/
theorem writeKeysFrom_eq (i : Nat) (ks : List Bytes) (s : State) :
    s.writeKeysFrom i ks =
      { s with rk := overwrite i ks s.rk, trace := s.trace ++ writeEvents i ks.length } := by
  induction ks generalizing i s with
  | nil => rfl
  | cons k ks ih =>
    rw [State.writeKeysFrom, ih]
    simp [overwrite, writeEvents, State.writeRk, State.decision, State.emit]

theorem overwrite_append (pre ks old : List Bytes) (h : old.length = ks.length) :
    overwrite pre.length ks (pre ++ old) = pre ++ ks := by
  induction ks generalizing pre old with
  | nil => simpa [overwrite] using h
  | cons k ks ih =>
    match old, h with
    | o :: old, h =>
      have := ih (pre ++ [k]) old (by simpa using h)
      simpa [overwrite] using this

/-- Writing as many registers as the file has replaces it whole (R141, R170). -/
theorem overwrite_all (ks old : List Bytes) (h : old.length = ks.length) : overwrite 0 ks old = ks := by
  simpa using overwrite_append [] ks old h

/-- Clearing what is already clear changes nothing. -/
theorem clearTransients_eq {s : State} (h : s.TransientsClear) : s.clearTransients = s := by
  obtain ⟨h1, h2, h3, h4⟩ := h
  cases s
  simp_all [State.clearTransients]

theorem respond_transientsClear (s : State) (st : Status) (q : Bytes) : (s.respond st q).TransientsClear :=
  ⟨rfl, rfl, rfl, rfl⟩

/-- Every command's meaning answers a next state whose response slot is full, with the transients clear (R26, R60, R156). -/
theorem exec_next (i : Instr) (s : State) :
    ∃ t, exec i s = .next t ∧ t.alg = s.alg ∧ t.cmd = s.cmd ∧ t.host = s.host ∧ t.TransientsClear ∧ ∃ q, t.rsp = some q := by
  have hblock : ∀ b r f, (s.blockCommand b r f).alg = s.alg ∧ (s.blockCommand b r f).cmd = s.cmd ∧
      (s.blockCommand b r f).host = s.host ∧ (s.blockCommand b r f).TransientsClear ∧
      ∃ q, (s.blockCommand b r f).rsp = some q := by
    intro b r f
    simp only [State.blockCommand]
    split
    · exact ⟨rfl, rfl, rfl, respond_transientsClear _ _ _, _, rfl⟩
    · split
      · exact ⟨rfl, rfl, rfl, respond_transientsClear _ _ _, _, rfl⟩
      · exact ⟨rfl, rfl, rfl, respond_transientsClear _ _ _, _, rfl⟩
  cases i with
  | keyload key =>
    simp only [exec, execKeyload]
    split
    · exact ⟨_, rfl, rfl, rfl, rfl, respond_transientsClear _ _ _, _, rfl⟩
    · split
      · exact ⟨_, rfl, rfl, rfl, rfl, respond_transientsClear _ _ _, _, rfl⟩
      · refine ⟨_, rfl, ?_, ?_, ?_, respond_transientsClear _ _ _, _, rfl⟩ <;>
          simp [State.loadKey, writeKeysFrom_eq]
  | encrypt b => exact ⟨_, rfl, hblock _ _ _⟩
  | decrypt b => exact ⟨_, rfl, hblock _ _ _⟩
  | zeroize =>
    refine ⟨_, rfl, ?_, ?_, ?_, respond_transientsClear _ _ _, _, rfl⟩ <;> simp [writeKeysFrom_eq]
  | info => exact ⟨_, rfl, rfl, rfl, rfl, respond_transientsClear _ _ _, _, rfl⟩

/-- A zeroised register file has its shape (R22). -/
theorem zeroKeys_shape (a : Alg) : (zeroKeys a).length = a.roundCount ∧ ∀ k ∈ zeroKeys a, k.length = a.rkBytes := by
  refine ⟨List.length_replicate, fun k hk => ?_⟩
  rw [List.eq_of_mem_replicate hk, zeros_length]

/-- A register write keeps the shape of the round-key file, the canonical form of the one writable space (R22, R42). -/
theorem writeRk_rkShape {s : State} (h : s.RkShape) {i : Nat} {v : Bytes} (hv : v.length = s.alg.rkBytes) :
    (s.writeRk i v).RkShape := by
  refine ⟨by simpa using h.1, fun k hk => ?_⟩
  rcases List.mem_or_eq_of_mem_set hk with hk | rfl
  · exact h.2 k hk
  · exact hv

/-- The state after reset has the shape (R30). -/
theorem resetOf_rkShape (a : Alg) : (State.resetOf a).RkShape := zeroKeys_shape a

/-- A checked record's step is a turn of the engine or the host. -/
theorem step_of_algOk {s : State} (ha : algOk s.alg = true) : step s = s.turn := if_pos ha

/-- A record that fails the check is refused (U8, U27). -/
theorem step_of_not_algOk {s : State} (ha : algOk s.alg = false) : step s = .refused .nonconformingAlg :=
  if_neg (by simp [ha])

/-- While a response is held, no command is there or its payload is incomplete, it is the host's turn (R49, R260, U22, U23). -/
theorem step_of_heldBack {s : State} (ha : algOk s.alg = true)
    (hb : s.rsp ≠ none ∨ s.cmd = none ∨ ∃ c, s.cmd = some c ∧ c.payload.length < c.len.toNat) : step s = s.hostTurn := by
  rw [step_of_algOk ha]
  unfold State.turn
  split
  · rfl
  · split
    next c hc hr =>
      rcases hb with h | h | ⟨d, hd, h⟩
      · exact absurd hr h
      · simp [h] at hc
      · cases hc.symm.trans hd
        exact if_pos h
    · rfl

/-- When the engine can run a command, the step is that whole command (R48). -/
theorem step_of_canRun {s : State} {c : Command} (h : s.CanRun c) : step s = s.runCommand c := by
  obtain ⟨ha, hc, hl, hr, hh⟩ := h
  have hl' : c.payload.length = c.len.toNat := by simpa [Command.complete] using hl
  have hturn : s.turn = s.engineTurn c := by
    unfold State.turn
    split
    next rest hrest => exact absurd hrest (hh rest)
    next => rw [hc, hr]
  rw [step, State.guardedTurn, if_pos ha, hturn, State.engineTurn, if_neg (by omega), if_pos hl']

/-- What a step can be, for a conforming record: the reset move, one whole command, the host's turn, or the fault on excess payload. -/
theorem step_cases {s : State} (ha : algOk s.alg = true) :
    (∃ rest, s.host = .reset :: rest ∧ step s = .next ({ s with host := rest }).assertReset) ∨
    (∃ c, s.CanRun c ∧ step s = s.runCommand c) ∨
    ((∀ rest, s.host ≠ .reset :: rest) ∧ step s = s.hostTurn) ∨
    (∃ c, s.cmd = some c ∧ c.len.toNat < c.payload.length ∧ step s = .fault .payloadOverrun) := by
  simp only [step, State.guardedTurn, if_pos ha]
  by_cases hh : ∃ rest, s.host = .reset :: rest
  · obtain ⟨rest, hr⟩ := hh
    refine .inl ⟨rest, hr, ?_⟩
    simp [State.turn, State.hostTurn, hr]
  · have hh' : ∀ rest, s.host ≠ .reset :: rest := fun rest h => hh ⟨rest, h⟩
    refine .inr ?_
    cases hc : s.cmd with
    | none =>
      refine .inr (.inl ⟨hh', ?_⟩)
      unfold State.turn
      split
      next rest hrest => exact absurd hrest (hh' rest)
      next => simp [hc]
    | some c =>
      cases hr : s.rsp with
      | some q =>
        refine .inr (.inl ⟨hh', ?_⟩)
        unfold State.turn
        split
        next rest hrest => exact absurd hrest (hh' rest)
        next => simp [hc, hr]
      | none =>
        have hturn : s.turn = s.engineTurn c := by
          unfold State.turn
          split
          next rest hrest => exact absurd hrest (hh' rest)
          next => rw [hc, hr]
        rw [hturn]
        unfold State.engineTurn
        split
        · exact .inr (.inl ⟨hh', rfl⟩)
        · split
          next hlen =>
            exact .inl ⟨c, ⟨ha, hc, by simpa [Command.complete] using hlen, hr, hh'⟩, rfl⟩
          next hlt hne => exact .inr (.inr ⟨c, rfl, by omega, rfl⟩)

/-- The host's turn, reset apart, touches the channels and the script only (R48). -/
theorem hostTurn_frame {s t : State} (hh : ∀ rest, s.host ≠ .reset :: rest) (h : s.hostTurn = .next t) :
    t = { s with cmd := t.cmd, rsp := t.rsp, host := t.host } ∧ (t.rsp = s.rsp ∨ t.rsp = none) := by
  unfold State.hostTurn at h
  split at h
  · cases h; exact ⟨rfl, .inl rfl⟩
  · split at h <;> cases h <;> exact ⟨rfl, .inl rfl⟩
  · unfold State.receivePayload at h
    split at h
    · split at h
      · cases h; exact ⟨rfl, .inl rfl⟩
      · cases h
    · split at h <;> cases h
      exact ⟨rfl, .inl rfl⟩
  · split at h <;> cases h
    · exact ⟨rfl, .inl rfl⟩
    · exact ⟨rfl, .inr rfl⟩
  · cases h; exact ⟨rfl, .inl rfl⟩
  next rest hrest => exact absurd hrest (hh rest)

/-- A whole command: an instruction's meaning, or the InvalidCommand response (R66). -/
theorem runCommand_ok {s : State} {c : Command} {i : Instr} (h : decode c = .ok i) :
    s.runCommand c = exec i s.accept := by simp [State.runCommand, h]

theorem runCommand_error {s : State} {c : Command} {e : Illegal} (h : decode c = .error e) :
    s.runCommand c = .next (s.accept.start.raise .command) := by simp [State.runCommand, h]

/-- The write loop's events: one write per register, in ascending order, no table read (R141, R170). -/
theorem writeEvents_rkEvents (i n : Nat) : (writeEvents i n).filter Event.isRk = (List.range' i n).map Event.rkWrite := by
  induction n generalizing i with
  | zero => rfl
  | succ n ih => simp [writeEvents, ih, List.range'_succ, List.filter_cons]

theorem writeEvents_tableEvents (i n : Nat) : (writeEvents i n).filter Event.isTable = [] := by
  induction n generalizing i with
  | zero => rfl
  | succ n ih => simp [writeEvents, ih]

/-- A block command's three cases (R142, R143): the wrong size, no key, the rounds. -/
theorem blockCommand_wrongSize (s : State) (b : Bytes) (r : Nat) (f : Nat → Bytes → Traced Bytes)
    (h : b.length ≠ s.alg.blockSize) :
    s.blockCommand b r f = { s with trace := [.branch .blockSize true] }.raise .blockSize := by
  simp [State.blockCommand, State.acceptsBlock, h]
  rfl

theorem blockCommand_uninit (s : State) (b : Bytes) (r : Nat) (f : Nat → Bytes → Traced Bytes)
    (h : b.length = s.alg.blockSize) (hs : s.stateFlag = .uninit) :
    s.blockCommand b r f =
      { s with trace := [.branch .blockSize false, .branch .engineState true] }.raise .engineState := by
  simp [State.blockCommand, State.acceptsBlock, h, hs, State.start, State.decision, State.emit, State.raise,
    State.respond, State.clearTransients]

theorem blockCommand_ready (s : State) (b : Bytes) (r : Nat) (f : Nat → Bytes → Traced Bytes)
    (h : b.length = s.alg.blockSize) (hs : s.stateFlag = .ready) :
    s.blockCommand b r f =
      { s with trace := [Event.branch .blockSize false, Event.branch .engineState false] ++ (f r b).trace }.respond .ok (f r b).val := by
  simp [State.blockCommand, State.acceptsBlock, h, hs, State.start, State.decision, State.emit, State.respond,
    State.clearTransients]

/-- Loading a key replaces the file by the expansion's keys and makes the engine READY (R141). -/
theorem loadKey_eq (s : State) (key : Bytes) (h : s.rk.length = s.alg.roundCount) :
    s.loadKey key =
      { s with
        stateFlag := .ready
        rk := (expand s.alg key).val.1
        trace := s.trace ++ (expand s.alg key).trace ++ writeEvents 0 s.alg.roundCount }.respond .ok [] := by
  have ho : overwrite 0 (expand s.alg key).val.1 s.rk = (expand s.alg key).val.1 := overwrite_all _ _ (by simpa using h)
  simp [State.loadKey, writeKeysFrom_eq, State.emit, State.respond, State.clearTransients, ho]

end Sys2Proof.Machine
end

