-- ==== Sys2Proof/Laws/Words.lean ====
section
/-! SUPPORT. Command and response words as numbers, and the fields read back from them. -/

namespace Sys2Proof

/-- A field of a word, read off its number. -/
theorem field_of_toNat {w : Word} {lo len v : Nat} (h : w.toNat / 2 ^ lo % 2 ^ len = v) :
    w.extractLsb' lo len = BitVec.ofNat len v := by
  apply BitVec.eq_of_toNat_eq
  simp [BitVec.extractLsb', Nat.shiftRight_eq_div_pow, ← h]

/-- The command word as a number: LEN in the upper half, RSVD zero, OPCODE in the low byte (R61). -/
theorem commandWord_toNat (n : Nat) (op : BitVec 8) :
    (commandWord n op).toNat = n % 65536 * 65536 + op.toNat := by
  have h : (BitVec.ofNat 16 n ++ 0x00#8 ++ op).toNat = n % 65536 * 65536 + op.toNat := by
    rw [BitVec.toNat_append, BitVec.toNat_append, ← Nat.shiftLeft_add_eq_or_of_lt op.isLt,
      ← Nat.shiftLeft_add_eq_or_of_lt (BitVec.isLt 0x00#8)]
    simp [Nat.shiftLeft_eq]
    omega
  exact h

theorem commandWord_opcode (n : Nat) (op : BitVec 8) (p : Bytes) : (Command.mk (commandWord n op) p).opcode = op := by
  have := op.isLt
  rw [Command.opcode, field_of_toNat (v := op.toNat) (by simp only [commandWord_toNat]; omega)]
  simp

theorem commandWord_rsvd (n : Nat) (op : BitVec 8) (p : Bytes) : (Command.mk (commandWord n op) p).rsvd = 0 := by
  have := op.isLt
  rw [Command.rsvd, field_of_toNat (v := 0) (by simp only [commandWord_toNat]; omega)]
  simp

theorem commandWord_len (n : Nat) (op : BitVec 8) (p : Bytes) :
    (Command.mk (commandWord n op) p).len = BitVec.ofNat 16 n := by
  have := op.isLt
  rw [Command.len, field_of_toNat (v := n % 65536) (by simp only [commandWord_toNat]; omega)]
  apply BitVec.eq_of_toNat_eq
  simp

/-- A command built by the bit numbering of the opcode table has all its payload bytes (R60). -/
theorem commandOfBits_complete (nbits w : Nat) : (commandOfBits nbits w).complete = true := by
  simp [commandOfBits, Command.complete, Command.len]

namespace Machine

/-- The response word as a number: LEN in the upper half, READY in bit 8, STATUS in the low byte (R62). -/
theorem responseWord_toNat (st : Status) (flag : StateFlag) (n : Nat) :
    (responseWord st flag n).toNat =
      (responseLen n).toNat * 65536 + (if flag.readyBit then 256 else 0) + st.code.toNat := by
  have h : (responseLen n ++ 0#7 ++ BitVec.ofBool flag.readyBit ++ st.code).toNat =
      (responseLen n).toNat * 65536 + (if flag.readyBit then 256 else 0) + st.code.toNat := by
    rw [BitVec.toNat_append, BitVec.toNat_append, BitVec.toNat_append, ← Nat.shiftLeft_add_eq_or_of_lt st.code.isLt,
      ← Nat.shiftLeft_add_eq_or_of_lt (BitVec.ofBool flag.readyBit).isLt, ← Nat.shiftLeft_add_eq_or_of_lt (BitVec.isLt 0#7)]
    cases flag <;> simp [Nat.shiftLeft_eq, StateFlag.readyBit] <;> omega
  exact h

end Machine

end Sys2Proof
end

