-- ==== Sys2Proof/Laws/PerInstr.lean ====
section
/-! SUPPORT. Per-instruction families. `Framed`: the encoding of a well-formed command has all its payload bytes, RSVD = 0 and the
opcode the table gives it (R60, R61, R63). -/

namespace Sys2Proof.Laws

/-- The opcode of each command (R63). -/
def opcodeOf : Instr → BitVec 8
  | .keyload _ => 0x01
  | .encrypt _ => 0x02
  | .decrypt _ => 0x03
  | .zeroize => 0x04
  | .info => 0x05

def Framed.Statement (i : Instr) : Prop :=
  i.wellFormed = true → (encode i).complete = true ∧ (encode i).rsvd = 0 ∧ (encode i).opcode = opcodeOf i

theorem complete_of_commandWord {p : Bytes} (op : BitVec 8) (h : lenFits p.length = true) :
    (Command.mk (commandWord p.length op) p).complete = true := by
  have h' : p.length < 65536 := by simpa [lenFits] using h
  rw [Command.complete, commandWord_len, BitVec.toNat_ofNat, Nat.mod_eq_of_lt h']
  exact decide_eq_true rfl

theorem Framed.keyload (key : Bytes) : Framed.Statement (.keyload key) := fun h =>
  ⟨complete_of_commandWord _ h, commandWord_rsvd _ _ _, commandWord_opcode _ _ _⟩

theorem Framed.encrypt (block : Bytes) : Framed.Statement (.encrypt block) := fun h =>
  ⟨complete_of_commandWord _ h, commandWord_rsvd _ _ _, commandWord_opcode _ _ _⟩

theorem Framed.decrypt (block : Bytes) : Framed.Statement (.decrypt block) := fun h =>
  ⟨complete_of_commandWord _ h, commandWord_rsvd _ _ _, commandWord_opcode _ _ _⟩

theorem Framed.zeroize : Framed.Statement .zeroize := fun _ =>
  ⟨by decide, commandWord_rsvd _ _ _, commandWord_opcode _ _ _⟩

theorem Framed.info : Framed.Statement .info := fun _ =>
  ⟨by decide, commandWord_rsvd _ _ _, commandWord_opcode _ _ _⟩

end Sys2Proof.Laws
end

