-- ==== Sys2Proof/Machine/Assembler.lean ====
section
/-! DEFINITION. The text form of commands and responses (R68) and the pseudo-instructions (R69), on lists of characters. -/

namespace Sys2Proof.Machine

/-- A hexadecimal digit of either case. -/
def hexDigit (c : Char) : Option Nat :=
  if '0' ≤ c ∧ c ≤ '9' then some (c.toNat - 48)
  else if 'a' ≤ c ∧ c ≤ 'f' then some (c.toNat - 87)
  else if 'A' ≤ c ∧ c ≤ 'F' then some (c.toNat - 55)
  else none

/-- `<hex>`: an even number of digits, two per byte, byte 0 first, possibly empty (R68). -/
def parseHex : List Char → Option Bytes
  | [] => some []
  | a :: b :: rest =>
    match hexDigit a, hexDigit b, parseHex rest with
    | some x, some y, some bs => some (BitVec.ofNat 8 (16 * x + y) :: bs)
    | _, _, _ => none
  | [_] => none

/-- The eight digits of a command word, most significant first (R68). -/
def parseWord (cs : List Char) : Option Word :=
  match parseHex cs with
  | some [a, b, c, d] => some (a ++ b ++ c ++ d)
  | _ => none

/-- The words of a line between spaces, up to the comment (R68). -/
def lineWords (line : List Char) : List (List Char) :=
  ((line.takeWhile (· ≠ ';')).splitOn ' ').filter (· ≠ [])

/-- A command sent and its response taken. -/
def sendAndTake (c : Command) : List HostMove := [.command c, .take]

/-- An instruction sent and its response taken; a payload that LEN cannot count has no text form. -/
def sendInstr (i : Instr) : Option (List HostMove) :=
  if i.wellFormed then some (sendAndTake (encode i)) else none

/-- `REKEY <hex>` (R69): ZEROIZE, then KEYLOAD, two commands and two responses. -/
def rekey (key : Bytes) : Option (List HostMove) :=
  match sendInstr .zeroize, sendInstr (.keyload key) with
  | some a, some b => some (a ++ b)
  | _, _ => none

/-- A mnemonic with its `<hex>` operand (R68, R69). -/
def assembleOperand (mnemonic : List Char) (payload : Bytes) : Option (List HostMove) :=
  if mnemonic = ['K', 'E', 'Y', 'L', 'O', 'A', 'D'] then sendInstr (.keyload payload)
  else if mnemonic = ['E', 'N', 'C', 'R', 'Y', 'P', 'T'] then sendInstr (.encrypt payload)
  else if mnemonic = ['D', 'E', 'C', 'R', 'Y', 'P', 'T'] then sendInstr (.decrypt payload)
  else if mnemonic = ['R', 'E', 'K', 'E', 'Y'] then rekey payload
  else none

/-- `.cmd 0xHHHHHHHH <hex>`: any command word; the number of bytes must equal H[31:16] (R68). -/
def assembleRaw (word : List Char) (payload : Bytes) : Option (List HostMove) :=
  match word with
  | '0' :: 'x' :: digits =>
    match parseWord digits with
    | some h => if (Command.mk h payload).complete then some (sendAndTake ⟨h, payload⟩) else none
    | none => none
  | _ => none

/-- The words of one line as host moves (R68, R69); an empty line is none. -/
def assembleWords : List (List Char) → Option (List HostMove)
  | [] => some []
  | [m] =>
    if m = ['Z', 'E', 'R', 'O', 'I', 'Z', 'E'] then sendInstr .zeroize
    else if m = ['I', 'N', 'F', 'O'] then sendInstr .info
    else if m = ['R', 'E', 'S', 'E', 'T'] then some [.reset]
    else assembleOperand m []
  | [m, x] =>
    if m = ['.', 'c', 'm', 'd'] then assembleRaw x []
    else
      match parseHex x with
      | some payload => assembleOperand m payload
      | none => none
  | [m, x, y] =>
    if m = ['.', 'c', 'm', 'd'] then
      match parseHex y with
      | some payload => assembleRaw x payload
      | none => none
    else none
  | _ => none

/-- One line of text, one command (R68). -/
def assembleLine (line : List Char) : Option (List HostMove) := assembleWords (lineWords line)

/-- The name of a status code; 0x05..0xFF are never produced (R62). -/
def statusName (code : BitVec 8) : List Char :=
  if code = 0x00#8 then ['O', 'K']
  else if code = 0x01#8 then "InvalidKeySize".toList
  else if code = 0x02#8 then "InvalidBlockSize".toList
  else if code = 0x03#8 then "InvalidState".toList
  else if code = 0x04#8 then "InvalidCommand".toList
  else []

/-- One hexadecimal digit, lower case. -/
def hexChar (n : Nat) : Char := if n < 10 then Char.ofNat (48 + n) else Char.ofNat (87 + n)

/-- A byte vector as `<hex>`. -/
def hexText (v : Bytes) : List Char := v.flatMap fun b => [hexChar (b.toNat / 16), hexChar (b.toNat % 16)]

/-- A response written `-> <STATUS name> R=<READY> <hex>` (R68); no operand is written for an empty payload. -/
def responseText (q : Response) : List Char :=
  ['-', '>', ' '] ++ statusName q.status ++ [' ', 'R', '='] ++ (if q.ready then ['1'] else ['0']) ++
    (if q.payload = [] then [] else ' ' :: hexText q.payload)

end Sys2Proof.Machine
end

