-- ==== Sys2Proof/Tests/Slice0.lean ====
section
/-! SUPPORT. Small tests: ill-formed terms, decoding, the spec's vectors (95_test_vectors.md; its results come from outside the model),
and, for every statement with hypotheses, concrete inputs that meet them all. -/

namespace Sys2Proof.Tests

open Sys2Proof Sys2Proof.Machine

/-! ## Well-formedness: each check refuses an ill-formed term -/

theorem test_keyload_too_long : (Instr.keyload (List.replicate 65536 0)).wellFormed = false := by
  simp only [Instr.wellFormed, lenFits, List.length_replicate]
  decide

theorem test_encrypt_too_long : (Instr.encrypt (List.replicate 65536 0)).wellFormed = false := by
  simp only [Instr.wellFormed, lenFits, List.length_replicate]
  decide

theorem test_decrypt_too_long : (Instr.decrypt (List.replicate 65536 0)).wellFormed = false := by
  simp only [Instr.wellFormed, lenFits, List.length_replicate]
  decide

theorem test_keyload_longest : (Instr.keyload (List.replicate 65535 0)).wellFormed = true := by
  simp only [Instr.wellFormed, lenFits, List.length_replicate]
  decide

theorem test_block_longest : (Instr.encrypt (List.replicate 65535 0)).wellFormed = true ∧
    (Instr.decrypt (List.replicate 65535 0)).wellFormed = true := by
  simp only [Instr.wellFormed, lenFits, List.length_replicate]
  decide

/-! ## Parameter records: each clause of the check refuses a record that breaks it -/

/-- A small conforming record: two-byte blocks, two rounds, the complement as S-box, bytes swapped, keys of 2 or 3 bytes, whose expansions
differ in their state widths (2 and 2, 3 and 1) and in the number of bytes they substitute. -/
def tiny (strategy : SboxStrategy) : Alg where
  blockSize := 2
  keySizes := [2, 3]
  roundCount := 2
  sbox := allBytes.map (fun x => ~~~x)
  sboxInv := allBytes.map (fun x => ~~~x)
  sboxStrategy := strategy
  diffuse := [.bytes [.input 1, .input 0]]
  diffuseInv := [.bytes [.input 1, .input 0]]
  lastRoundDiffuses := false
  expansions :=
    [⟨2, [], [[.subst 0 1, .net (.bytes (inputs 0 2 ++ inputs 0 2))], [.net (.bytes (inputs 0 2 ++ inputs 0 2))]]⟩,
      ⟨3, [], [[.subst 0 3, .net (.bytes (inputs 0 2 ++ inputs 0 3))], [.net (.bytes (inputs 1 2 ++ inputs 0 1))]]⟩]

/-- The record with the full scan, and with the formula `not x`. -/
def scanned : Alg := tiny .fullScan

def computed : Alg := tiny (.formula (.not (.input 0)) (.not (.input 0)))

theorem test_reset_record : algOk resetAlg = true := by decide +kernel
theorem test_ref8_record : algOk (ref8 .fullScan) = true := by decide +kernel
theorem test_block_size_zero : algOk { scanned with blockSize := 0 } = false := by decide
theorem test_no_key_sizes : algOk { scanned with keySizes := [], expansions := [] } = false := by decide
theorem test_key_size_zero : algOk { scanned with keySizes := [0, 2] } = false := by decide
theorem test_key_sizes_not_ascending : algOk { scanned with keySizes := [3, 2] } = false := by decide
theorem test_no_rounds : algOk { scanned with roundCount := 0 } = false := by decide
theorem test_round_key_wider_than_block : algOk { scanned with rkBytes := 3 } = false := by decide
theorem test_diffuse_names_missing_byte : algOk { scanned with diffuse := [.bytes [.input 1, .input 2]] } = false := by
  decide
theorem test_keymix_too_wide : algOk { scanned with keymix := [.bytes (inputs 0 3)] } = false := by decide
theorem test_expansion_missing_length : algOk { scanned with expansions := scanned.expansions.take 1 } = false := by decide
theorem test_ks_init_names_missing_byte :
    algOk { scanned with keySizes := [2], expansions := [⟨2, [.subst 1 2], [[], []]⟩] } = false := by decide
theorem test_ks_step_missing : algOk { scanned with keySizes := [3], expansions := [⟨3, [], [[]]⟩] } = false := by decide
theorem test_ks_step_too_short : algOk { scanned with keySizes := [3], expansions := [⟨3, [], [[], []]⟩] } = false := by decide
theorem test_table_too_short : algOk { scanned with sbox := [0x00] } = false := by decide
theorem test_table_not_the_inverse : algOk { scanned with sboxInv := allBytes } = false := by decide +kernel
theorem test_formula_not_the_table :
    algOk { scanned with sboxStrategy := .formula (.input 0) (.input 0) } = false := by decide +kernel
theorem test_step_refuses_bad_record :
    step (State.resetOf { scanned with blockSize := 0 }) = .refused .nonconformingAlg := by rfl

/-- U8: an S-box that is no bijection (byte 1 is sent where byte 0 is) is refused. -/
theorem test_step_refuses_nonbijective :
    step (State.resetOf { scanned with sbox := 0xff :: 0xff :: scanned.sbox.drop 2 }) = .refused .nonconformingAlg := by
  rw [step_of_not_algOk (by decide +kernel)]

theorem scanned_ok : algOk scanned = true := by decide +kernel
theorem computed_ok : algOk computed = true := by decide +kernel

theorem tiny_keymix (st : SboxStrategy) : KeymixInverts (tiny st) := by
  intro b k hb hk
  match b, hb, k, hk with
  | [b0, b1], _, [k0, k1], _ =>
    show [b0 ^^^ k0 ^^^ k0, b1 ^^^ k1 ^^^ k1] = _
    simp

theorem tiny_diffuse (st : SboxStrategy) : DiffuseInverts (tiny st) := by
  intro b hb
  match b, hb with
  | [b0, b1], _ => rfl

/-- Witness: a conforming record under the full scan. -/
theorem scanned_conforms : Conforming scanned :=
  ⟨scanned_ok, tiny_keymix _, tiny_diffuse _⟩

/-- Witness: a conforming record under a formula. -/
theorem computed_conforms : Conforming computed :=
  ⟨computed_ok, tiny_keymix _, tiny_diffuse _⟩

/-! ## Decoding: words written out bit by bit from R61 (LEN 31:16, RSVD 15:8, OPCODE 7:0) and R63 -/

theorem test_decode_keyload :
    decode ⟨0b0000000000010000_00000000_00000001#32, zeros 16⟩ = .ok (.keyload (zeros 16)) := by decide
theorem test_decode_encrypt :
    decode ⟨0b0000000000000010_00000000_00000010#32, [0x11, 0x22]⟩ = .ok (.encrypt [0x11, 0x22]) := by decide
theorem test_decode_decrypt :
    decode ⟨0b0000000000000010_00000000_00000011#32, [0x11, 0x22]⟩ = .ok (.decrypt [0x11, 0x22]) := by decide
theorem test_decode_zeroize : decode ⟨0b0000000000000000_00000000_00000100#32, []⟩ = .ok .zeroize := by decide
theorem test_decode_info : decode ⟨0b0000000000000000_00000000_00000101#32, []⟩ = .ok .info := by decide
theorem test_decode_reserved_bits : decode ⟨0b0000000000000000_00000001_00000100#32, []⟩ = .error .reservedBits := by decide
theorem test_decode_opcode_zero : decode ⟨0b0000000000000000_00000000_00000000#32, []⟩ = .error .reservedOpcode := by decide
theorem test_decode_opcode_six : decode ⟨0b0000000000000000_00000000_00000110#32, []⟩ = .error .reservedOpcode := by decide
theorem test_decode_opcode_ff : decode ⟨0b0000000000000000_00000000_11111111#32, []⟩ = .error .reservedOpcode := by decide
theorem test_decode_zeroize_with_length :
    decode ⟨0b0000000000000001_00000000_00000100#32, [0x00]⟩ = .error .lengthOnFormatN := by decide
theorem test_decode_info_with_length :
    decode ⟨0b0000000000000001_00000000_00000101#32, [0x00]⟩ = .error .lengthOnFormatN := by decide
theorem test_table_words :
    decodeTableWord 32 0x00000001 = some (.keyload []) ∧ decodeTableWord 32 0x00000002 = some (.encrypt []) ∧
    decodeTableWord 32 0x00020003 = some (.decrypt [0x00, 0x00]) ∧ decodeTableWord 32 0x00000004 = some .zeroize ∧
    decodeTableWord 32 0x00000005 = some .info := by decide

/-! ## Text forms (R68, R69) -/

theorem test_text_keyload : assembleLine "KEYLOAD 00aB ; a key".toList = some [.command ⟨0x00020001#32, [0x00, 0xab]⟩, .take] := by
  decide
theorem test_text_rekey : assembleLine "REKEY 07".toList =
    some [.command ⟨0x00000004#32, []⟩, .take, .command ⟨0x00010001#32, [0x07]⟩, .take] := by decide
theorem test_text_raw : assembleLine ".cmd 0x00010004 ff".toList = some [.command ⟨0x00010004#32, [0xff]⟩, .take] := by decide
theorem test_text_raw_wrong_count : assembleLine ".cmd 0x00020004 ff".toList = none := by decide
theorem test_text_reset : assembleLine "RESET".toList = some [.reset] := by decide
theorem test_text_response : responseText ⟨0x00020100#32, [0x0f, 0xa0]⟩ = "-> OK R=1 0fa0".toList := by decide

/-! ## Components: vectors V1 to V3, V11 to V14, V20, V23, V24, V31, V35, V42, V43, V51 of 95_test_vectors.md -/

/-- V1. -/
theorem test_substitute_v1 : [0x00, 0x4c, 0x60, 0x7f, 0x80, 0xff].map (fun x => (substitute (ref16 .fullScan) x).val) =
    [0x63, 0x00, 0x60, 0x6f, 0x67, 0x6b] := by decide +kernel

/-- V1, the formula. -/
theorem test_formula_v1 : [0x00, 0x4c, 0x60, 0x7f, 0x80, 0xff].map (fun x => srefFormula.eval [x]) =
    [0x63, 0x00, 0x60, 0x6f, 0x67, 0x6b] := by decide +kernel

/-- V2. -/
theorem test_substitute_inv_v2 : [0x00, 0x63, 0x6b, 0xff, 0x60].map (fun x => (substituteInv (ref16 .fullScan) x).val) =
    [0x4c, 0x00, 0xff, 0x51, 0x60] := by decide +kernel

/-- V3. -/
theorem test_eqmask_v3 : eqmask8 0x00 0x00 = 0xff ∧ eqmask8 0x00 0xff = 0x00 ∧ eqmask8 0x80 0x00 = 0x00 ∧
    eqmask8 0xff 0xff = 0xff ∧ eqmask8 0x7f 0x80 = 0x00 ∧ eqmask8 0x01 0x00 = 0x00 := by decide

/-- V11. -/
theorem test_mix4_v11 : mix4.eval [0x01, 0x02, 0x04, 0x08, 0xff, 0x00, 0x00, 0x00, 0xaa, 0x55, 0xaa, 0x55, 0x01, 0x01, 0x01, 0x00] =
    [0x0e, 0x0d, 0x0b, 0x07, 0x00, 0xff, 0xff, 0xff, 0xaa, 0x55, 0xaa, 0x55, 0x00, 0x00, 0x00, 0x01] := by decide +kernel

/-- V12: x[5] goes to p[1]; MIX4 spreads it in its group. -/
theorem test_diffuse16_v12 : diffuse (ref16 .fullScan) (zeros 5 ++ [0x80] ++ zeros 10) =
    [0x80, 0x00, 0x80, 0x80] ++ zeros 12 := by decide +kernel

/-- V12. -/
theorem test_diffuse_inv16_v12 : diffuseInv (ref16 .fullScan) ([0x01] ++ zeros 15) =
    [0x00, 0x00, 0x00, 0x00, 0x00, 0x01, 0x00, 0x00, 0x00, 0x00, 0x01, 0x00, 0x00, 0x00, 0x00, 0x01] := by decide +kernel

/-- V13: wraps in each byte, no carry. -/
theorem test_keymix8_v13 : keymix (ref8 .fullScan) ([0xff, 0x00, 0x80] ++ zeros 5) ([0x01, 0xff, 0x80] ++ zeros 5) =
    [0x00, 0xff, 0x00] ++ zeros 5 := by decide +kernel

/-- V14. -/
theorem test_diffuse8_v14 : diffuse (ref8 .fullScan) [0x01, 0x02, 0x03, 0x04, 0x05, 0x06, 0x07, 0x08] =
    [0x10, 0x18, 0x20, 0x28, 0x30, 0x38, 0x40, 0x08] := by decide +kernel

/-- V14. -/
theorem test_diffuse_inv8_v14 : diffuseInv (ref8 .fullScan) [0x01, 0x02, 0x03, 0x04, 0x05, 0x06, 0x07, 0x08] =
    [0xe1, 0x00, 0x20, 0x40, 0x60, 0x80, 0xa0, 0xc0] := by decide +kernel

/-- V23, key 00 to 07: the three round keys (formula strategy: the same values, less to evaluate). -/
theorem test_derive8_v23 : (derive (ref8 (.formula srefFormula (.input 0))) [0x00, 0x01, 0x02, 0x03, 0x04, 0x05, 0x06, 0x07]).val =
    some [[0x63, 0x32, 0x40, 0x12, 0x23, 0xf0, 0x04, 0xd0], [0xcb, 0x4b, 0x52, 0xb9, 0x2d, 0xba, 0x54, 0xec],
      [0xcf, 0xc0, 0x87, 0x46, 0xb8, 0x29, 0xb5, 0xcd]] := by decide +kernel

/-- R105, by hand: a 3-byte key is complemented whole, its second round key is cut from a 3-byte state; three table scans, where the
2-byte key of `test_keyload_tiny` has one. -/
theorem test_derive_by_length :
    (derive scanned [0x12, 0x34, 0x56]).val = some [[0xed, 0xcb], [0xcb, 0xa9]] ∧
    ((derive scanned [0x12, 0x34, 0x56]).trace.filter Event.isTable).length = 3 * 256 ∧
    ((derive scanned [0x12, 0x34]).trace.filter Event.isTable).length = 256 := by decide +kernel

/-- V20, the last round key of the zero key. -/
theorem test_derive16_v20 : (derive (ref16 (.formula srefFormula (.input 0))) (zeros 16)).val.map (·.getD 3 []) =
    some [0x8e, 0x8a, 0x8a, 0x8a, 0x8a, 0x8a, 0x8a, 0x8a, 0x8a, 0x8a, 0x8a, 0x8a, 0x8a, 0x9c, 0x76, 0x9f] := by decide +kernel

/-- V24: a key of 15 bytes. -/
theorem test_derive16_v24 : (derive (ref16 .fullScan) (zeros 15)).val = none := by decide

/-- V42: order S, D, K, and the last round diffuses. -/
theorem test_forward8_v42 : (forward (ref8 .fullScan) [0x00, 0x01, 0x02, 0x03, 0x04, 0x05, 0x06, 0x07] (List.replicate 8 0xa5) true).val =
    [0x7e, 0x43, 0xff, 0xbb, 0x75, 0x2e, 0xe8, 0xc0] := by decide +kernel

/-- V43. -/
theorem test_inverse8_v43 : (inverse (ref8 .fullScan) (zeros 8) (zeros 8) false).val = List.replicate 8 0x4c := by decide +kernel

/-- V31: all four rounds of REF16. -/
theorem test_encrypt16_v31 :
    let a := ref16 (.formula srefFormula (.input 0))
    (derive a [0x00, 0x01, 0x02, 0x03, 0x04, 0x05, 0x06, 0x07, 0x08, 0x09, 0x0a, 0x0b, 0x0c, 0x0d, 0x0e, 0x0f]).val.map
      (fun rk => (encryptRounds a rk [0x00, 0x11, 0x22, 0x33, 0x44, 0x55, 0x66, 0x77, 0x88, 0x99, 0xaa, 0xbb, 0xcc, 0xdd, 0xee, 0xff]).val) =
    some [0x22, 0xa6, 0xb3, 0xe7, 0x50, 0xbe, 0xc5, 0x2a, 0x67, 0xa2, 0x9f, 0xae, 0xa7, 0x46, 0x6c, 0x86] := by decide +kernel

/-- V35: DECRYPT of the zero block on REF8, all three rounds, 16-byte key. -/
theorem test_decrypt8_v35 : (decryptRounds (ref8 .fullScan) [[0x27, 0xf4, 0x00, 0xd4, 0xe7, 0xb2, 0xc4, 0x92], [0xec, 0x7a, 0x10, 0x6b, 0x48, 0x68, 0x12, 0x1e],
    [0x80, 0x0d, 0x70, 0x56, 0xc5, 0xdf, 0xa4, 0x1e]] (zeros 8)).val = [0xa7, 0x40, 0xb8, 0x3f, 0xe7, 0xfb, 0xfd, 0xd4] := by decide +kernel

/-- V51: the INFO record of REF8. -/
theorem test_info8_v51 : infoRecord (ref8 .fullScan) =
    [0x08, 0x00, 0x03, 0x00, 0x08, 0x00, 0x02, 0x00, 0x08, 0x00, 0x10, 0x00] := by decide

/-- V51: the response words of INFO, LEN 12. -/
theorem test_info8_words_v51 : responseWord .ok .uninit 12 = 0x000C0000#32 ∧ responseWord .ok .ready 12 = 0x000C0100#32 := by decide

/-! ## Steps -/

/-- The record's engine with command `c` on the channel. -/
def offered (a : Alg) (flag : StateFlag) (c : Command) : State :=
  { State.resetOf a with
    stateFlag := flag
    rk := if flag = .ready then [[0x11, 0x22], [0x33, 0x44]] else zeroKeys a
    cmd := some c }

/-- The response a step ends with. -/
def answer (s : State) : Option Response :=
  match step s with
  | .next t => t.rsp
  | _ => none

/-- V50 row 1: INFO after reset. -/
theorem test_info_v50 : answer (State.reset.withFetchWord 32 0x00000005) =
    some ⟨0x000A0000#32, [0x10, 0x00, 0x04, 0x00, 0x10, 0x00, 0x01, 0x00, 0x10, 0x00]⟩ := by decide +kernel

/-- V50 row 6: ZEROIZE. -/
theorem test_zeroize_v50 : answer (State.reset.withFetchWord 32 0x00000004) = some ⟨0x00000000#32, []⟩ := by decide +kernel

/-- V52: KEYLOAD with 15 bytes. -/
theorem test_keyload_v52 : answer (State.reset.withFetchWord 32 0x000F0001) = some ⟨0x00000001#32, []⟩ := by decide +kernel

/-- The keys of KEYLOAD 12 34 by hand: byte 0 is complemented by the first iteration's SubWord, then unchanged. -/
theorem test_keyload_tiny :
    (match step (offered scanned .uninit ⟨0x00020001#32, [0x12, 0x34]⟩) with
      | .next t => some (t.rk, t.stateFlag, t.rsp)
      | _ => none) =
    some ([[0xed, 0x34], [0xed, 0x34]], .ready, some ⟨0x00000100#32, []⟩) := by decide +kernel

/-- ENCRYPT 01 02 by hand: round 0: xor 11 22, complement, swap; round 1: xor 33 44, complement, no swap. -/
theorem test_encrypt_tiny : answer (offered scanned .ready ⟨0x00020002#32, [0x01, 0x02]⟩) =
    some ⟨0x00020100#32, [0x13, 0x54]⟩ := by decide +kernel

theorem test_decrypt_tiny : answer (offered scanned .ready ⟨0x00020003#32, [0x13, 0x54]⟩) =
    some ⟨0x00020100#32, [0x01, 0x02]⟩ := by decide +kernel

/-- R89: another key and block, the same trace. -/
theorem test_trace_tiny :
    (match step (offered computed .ready ⟨0x00020002#32, [0x01, 0x02]⟩) with
      | .next t => t.trace.length
      | _ => 0) =
    (match step { offered computed .ready ⟨0x00020002#32, [0xfe, 0x80]⟩ with rk := [[0x00, 0xff], [0x00, 0x00]] } with
      | .next t => t.trace.length
      | _ => 1) := by decide +kernel

/-- A step of the scanned record is its turn. -/
theorem step_scanned {s : State} {o : Host.Outcome State Fault Refusal} (ha : s.alg = scanned) (h : s.turn = o) : step s = o :=
  (step_of_algOk (ha ▸ scanned_ok)).trans h

/-- A command whose payload is incomplete waits (U22); its last byte lets it run. -/
theorem test_incomplete_waits : step (offered scanned .ready ⟨0x00020002#32, [0x01]⟩) =
    .next (offered scanned .ready ⟨0x00020002#32, [0x01]⟩) := step_scanned rfl rfl

theorem test_payload_arrives :
    step { offered scanned .ready ⟨0x00020002#32, [0x01]⟩ with host := [.payload [0x02]] } =
      .next (offered scanned .ready ⟨0x00020002#32, [0x01, 0x02]⟩) := step_scanned rfl rfl

/-! ## Witnesses: inputs that meet a statement's hypotheses -/

/-- A state with nothing for the host to do, a command on the channel and no response held can run it. -/
theorem canRun_of {s : State} {c : Command} (ha : algOk s.alg = true) (hc : s.cmd = some c) (hl : c.complete = true)
    (hr : s.rsp = none) (hh : s.host = []) : s.CanRun c :=
  ⟨ha, hc, hl, hr, fun _ h => by simp [hh] at h⟩

theorem offered_canRun (flag : StateFlag) (c : Command) (hl : c.complete = true) : (offered scanned flag c).CanRun c :=
  canRun_of scanned_ok rfl hl rfl rfl

theorem offered_shape (flag : StateFlag) (c : Command) : (offered scanned flag c).RkShape := by
  cases flag
  · exact ⟨rfl, show ∀ k ∈ zeroKeys scanned, k.length = scanned.rkBytes by decide⟩
  · exact ⟨rfl, show ∀ k ∈ [[0x11#8, 0x22#8], [0x33#8, 0x44#8]], k.length = scanned.rkBytes by decide⟩

theorem offered_clear (flag : StateFlag) (c : Command) : (offered scanned flag c).TransientsClear := ⟨rfl, rfl, rfl, rfl⟩

/-- Witness of DecodeInvertsEncode: each instruction, the shortest operands. -/
theorem witness_DecodeInvertsEncode :
    (Instr.keyload []).wellFormed = true ∧ (Instr.encrypt [0x00]).wellFormed = true ∧ (Instr.decrypt [0xff]).wellFormed = true ∧
    Instr.zeroize.wellFormed = true ∧ Instr.info.wellFormed = true := by decide

/-- Witness of EncodeInvertsDecode. -/
theorem witness_EncodeInvertsDecode :
    (Command.mk 0x00020002#32 [0x01, 0x02]).complete = true ∧ decode ⟨0x00020002#32, [0x01, 0x02]⟩ = .ok (.encrypt [0x01, 0x02]) := by
  decide

/-- Witness of IllegalCommandChangesNothing: in both states, one word for each ground of R66. -/
theorem witness_IllegalCommandChangesNothing :
    ∀ flag, ∀ c ∈ [Command.mk 0x00000101#32 [], ⟨0x00000000#32, []⟩, ⟨0x00000006#32, []⟩, ⟨0x00010004#32, [0x00]⟩, ⟨0x00010005#32, [0x00]⟩],
      (offered scanned flag c).CanRun c ∧ (offered scanned flag c).TransientsClear ∧ ∃ e, decode c = .error e := by
  intro flag c hc
  have h : c.complete = true ∧ ∃ e, decode c = .error e := by
    simp only [List.mem_cons, List.not_mem_nil, or_false] at hc
    rcases hc with rfl | rfl | rfl | rfl | rfl
    · exact ⟨by decide, .reservedBits, by decide⟩
    · exact ⟨by decide, .reservedOpcode, by decide⟩
    · exact ⟨by decide, .reservedOpcode, by decide⟩
    · exact ⟨by decide, .lengthOnFormatN, by decide⟩
    · exact ⟨by decide, .lengthOnFormatN, by decide⟩
  exact ⟨offered_canRun flag c h.1, offered_clear flag c, h.2⟩

/-- Witness of DirectionBitSelectsThePass: both values of DIR. -/
theorem witness_DirectionBitSelectsThePass :
    (Command.mk 0x00000002#32 []).rsvd = 0#8 ∧ (Command.mk 0x00000002#32 []).dir = false ∧
    (Command.mk 0x00000003#32 []).rsvd = 0#8 ∧ (Command.mk 0x00000003#32 []).dir = true := by decide

/-- Witness of ResponseWordLayout's clause about LEN. -/
theorem witness_ResponseWordLayout : ([] : Bytes).length < 65536 ∧ (List.replicate 65535 (0 : Byte)).length < 65536 := by
  simp only [List.length_replicate]
  decide

/-- Witness of StepRunsTheDecodedCommand and EveryCommandIsAnswered: every instruction. -/
theorem witness_StepRunsTheDecodedCommand :
    ∀ ci ∈ [(Command.mk 0x00020001#32 [0x12, 0x34], Instr.keyload [0x12, 0x34]), (⟨0x00020002#32, [0x01, 0x02]⟩, .encrypt [0x01, 0x02]),
        (⟨0x00020003#32, [0x01, 0x02]⟩, .decrypt [0x01, 0x02]), (⟨0x00000004#32, []⟩, .zeroize), (⟨0x00000005#32, []⟩, .info)],
      (offered scanned .ready ci.1).CanRun ci.1 ∧ decode ci.1 = .ok ci.2 := by
  have h : ∀ ci ∈ [(Command.mk 0x00020001#32 [0x12, 0x34], Instr.keyload [0x12, 0x34]), (⟨0x00020002#32, [0x01, 0x02]⟩, .encrypt [0x01, 0x02]),
        (⟨0x00020003#32, [0x01, 0x02]⟩, .decrypt [0x01, 0x02]), (⟨0x00000004#32, []⟩, .zeroize), (⟨0x00000005#32, []⟩, .info)],
      ci.1.complete = true ∧ decode ci.1 = .ok ci.2 := by decide
  exact fun ci hc => ⟨offered_canRun _ _ (h ci hc).1, (h ci hc).2⟩

/-- Witness of EveryCommandIsAnswered: an illegal command too. -/
theorem witness_EveryCommandIsAnswered : (offered scanned .uninit ⟨0x00000000#32, []⟩).CanRun ⟨0x00000000#32, []⟩ :=
  offered_canRun _ _ (by decide)

/-- Witness of PlacedCommandRunsNext. -/
theorem witness_PlacedCommandRunsNext : algOk State.reset.alg = true ∧ decodeTableWord 32 0x00000004 = some .zeroize :=
  ⟨test_reset_record, by decide⟩

/-- Witness of ResetAtAnyTime: in READY, with a command on the channel. -/
theorem witness_ResetAtAnyTime :
    algOk { offered scanned .ready ⟨0x00000005#32, []⟩ with host := [.reset, .wait] }.alg = true ∧
    { offered scanned .ready ⟨0x00000005#32, []⟩ with host := [.reset, .wait] }.host = HostMove.reset :: [.wait] := ⟨scanned_ok, rfl⟩

/-- Witness of EngineHeldBack, a response held: the host takes it. -/
theorem witness_EngineHeldBack_response :
    let s := { offered scanned .ready ⟨0x00000005#32, []⟩ with rsp := some ⟨0x00000100#32, []⟩, host := [.take] }
    (∀ rest, s.host ≠ .reset :: rest) ∧ s.rsp ≠ none ∧ step s = .next (offered scanned .ready ⟨0x00000005#32, []⟩) :=
  ⟨fun _ h => by simp at h, by simp, step_scanned rfl rfl⟩

/-- Witness of EngineHeldBack, no command. -/
theorem witness_EngineHeldBack_empty :
    (∀ rest, (State.resetOf scanned).host ≠ .reset :: rest) ∧ (State.resetOf scanned).cmd = none ∧
    step (State.resetOf scanned) = .next (State.resetOf scanned) :=
  ⟨fun _ h => by simp [State.resetOf] at h, rfl, step_scanned rfl rfl⟩

/-- Witness of EngineHeldBack, an incomplete payload, one byte short. -/
theorem witness_EngineHeldBack_incomplete :
    let s := offered scanned .ready ⟨0x00020002#32, [0x01]⟩
    (∀ rest, s.host ≠ .reset :: rest) ∧ (∃ c, s.cmd = some c ∧ c.payload.length < c.len.toNat) ∧ step s = .next s :=
  ⟨fun _ h => by simp [offered, State.resetOf] at h, ⟨_, rfl, by decide⟩, step_scanned rfl rfl⟩

/-- Witness of OfferedCommandLandsOrWaits: an empty channel, a held response, an incomplete command one byte short. -/
theorem witness_OfferedCommandLandsOrWaits :
    let c : Command := ⟨0x00000005#32, []⟩
    let d : Command := ⟨0x00020002#32, [0x01]⟩
    let s := { State.resetOf scanned with host := [.command c] }
    let t := { offered scanned .ready d with host := [.command c] }
    algOk scanned = true ∧ s.host = .command c :: [] ∧ s.cmd = none ∧
      t.host = .command c :: [] ∧ t.cmd = some d ∧ d.payload.length < d.len.toNat ∧
      ({ t with rsp := some ⟨0x00000100#32, []⟩ } : State).rsp ≠ none :=
  ⟨scanned_ok, rfl, rfl, rfl, rfl, by decide, by simp⟩

/-- Witness of PayloadBytesArrive: the last missing byte. -/
theorem witness_PayloadBytesArrive :
    let c : Command := ⟨0x00020002#32, [0x01]⟩
    let s := { offered scanned .ready c with host := [.payload [0x02]] }
    algOk s.alg = true ∧ s.host = .payload [0x02] :: [] ∧ s.cmd = some c ∧ c.payload.length < c.len.toNat ∧
      c.payload.length + [0x02#8].length = c.len.toNat ∧ s.rsp = none ∧ ∀ r, ([] : List HostMove) ≠ .reset :: r :=
  ⟨scanned_ok, rfl, rfl, by decide, by decide, rfl, by simp⟩

/-- Witness of PayloadBytesArrive: a move of no bytes (log entry 3), a response held. -/
theorem witness_PayloadBytesArrive_empty :
    let c : Command := ⟨0x00020002#32, [0x01]⟩
    let s := { offered scanned .ready c with rsp := some ⟨0x00000100#32, []⟩, host := [.payload []] }
    algOk s.alg = true ∧ s.host = .payload [] :: [] ∧ s.cmd = some c ∧ s.rsp ≠ none ∧
      c.payload.length + ([] : Bytes).length ≤ c.len.toNat :=
  ⟨scanned_ok, rfl, rfl, by simp, by decide⟩

/-- Witness of TakenResponseFreesTheEngine: a response taken with a complete command waiting, and none to take. -/
theorem witness_TakenResponseFreesTheEngine :
    let c : Command := ⟨0x00000005#32, []⟩
    let q : Response := ⟨0x00000100#32, []⟩
    let s := { offered scanned .ready c with rsp := some q, host := [.take] }
    algOk s.alg = true ∧ s.host = .take :: [] ∧ s.rsp = some q ∧ s.cmd = some c ∧ c.complete = true ∧
      (∀ r, ([] : List HostMove) ≠ .reset :: r) ∧
      ({ State.resetOf scanned with host := [.take] } : State).rsp = none ∧
      ({ State.resetOf scanned with host := [.take] } : State).cmd = none :=
  ⟨scanned_ok, rfl, rfl, rfl, by decide, by simp, rfl, rfl⟩

/-- Witness of IdleMoves: each move, with and without payload bytes. -/
theorem witness_IdleMoves :
    ∀ m ∈ [[], [HostMove.wait], [.payload []], [.payload [0x00]]],
      ({ State.resetOf scanned with host := m } : State).cmd = none ∧ algOk scanned = true :=
  fun _ _ => ⟨rfl, scanned_ok⟩

/-- A payload move of no bytes with no command is passed over; one byte is the fault (log entry 3). -/
theorem test_payload_without_command :
    step { State.resetOf scanned with host := [.payload []] } = .next (State.resetOf scanned) ∧
    step { State.resetOf scanned with host := [.payload [0x00]] } = .fault .payloadOverrun :=
  ⟨step_scanned rfl rfl, step_scanned rfl rfl⟩

/-- Witnesses of OnlyExcessPayloadFaults: one byte too many on the channel, one byte too many sent, a byte with no command. -/
theorem witness_OnlyExcessPayloadFaults :
    algOk scanned = true ∧
    step (offered scanned .ready ⟨0x00000005#32, [0x00]⟩) = .fault .payloadOverrun ∧
    step { offered scanned .ready ⟨0x00020002#32, [0x01]⟩ with host := [.payload [0x02, 0x03]] } = .fault .payloadOverrun ∧
    step { State.resetOf scanned with host := [.payload [0x02]] } = .fault .payloadOverrun :=
  ⟨scanned_ok, step_scanned rfl rfl, step_scanned rfl rfl,
    step_scanned rfl rfl⟩

/-- Witness of ErrorPriority: a command for each line of the priority, where two errors apply the first is answered (R226). -/
theorem witness_ErrorPriority :
    ∀ x ∈ [(StateFlag.ready, Command.mk 0x00010101#32 [0x00]), (.ready, ⟨0x00010001#32, [0x00]⟩), (.uninit, ⟨0x00030002#32, [0, 0, 0]⟩),
        (.ready, ⟨0x00030001#32, [0, 0, 0]⟩), (.uninit, ⟨0x00020003#32, [0, 0]⟩), (.ready, ⟨0x00020003#32, [0, 0]⟩)],
      (offered scanned x.1 x.2).CanRun x.2 := by
  have h : ∀ x ∈ [(StateFlag.ready, Command.mk 0x00010101#32 [0x00]), (.ready, ⟨0x00010001#32, [0x00]⟩), (.uninit, ⟨0x00030002#32, [0, 0, 0]⟩),
        (.ready, ⟨0x00030001#32, [0, 0, 0]⟩), (.uninit, ⟨0x00020003#32, [0, 0]⟩), (.ready, ⟨0x00020003#32, [0, 0]⟩)],
      x.2.complete = true := by decide
  exact fun x hx => offered_canRun _ _ (h x hx)

/-- R226 on those commands: InvalidCommand, InvalidKeySize, InvalidBlockSize, InvalidState twice, OK. -/
theorem test_error_priority :
    [(StateFlag.ready, Command.mk 0x00010101#32 [0x00]), (.ready, ⟨0x00010001#32, [0x00]⟩), (.uninit, ⟨0x00030002#32, [0, 0, 0]⟩),
      (.ready, ⟨0x00030001#32, [0, 0, 0]⟩), (.uninit, ⟨0x00020003#32, [0, 0]⟩), (.ready, ⟨0x00020003#32, [0, 0]⟩)].map
      (fun x => (answer (offered scanned x.1 x.2)).map Response.status) =
    [some 0x04, some 0x01, some 0x02, some 0x03, some 0x03, some 0x00] := by decide +kernel

/-- Witness of KeyloadMeaning: the key sizes 2 and 3 are valid, 1 and 4 are not; both states; the file has its registers. -/
theorem witness_KeyloadMeaning :
    1 ∉ scanned.keySizes ∧ 2 ∈ scanned.keySizes ∧ 3 ∈ scanned.keySizes ∧ 4 ∉ scanned.keySizes ∧
    (offered scanned .ready ⟨0#32, []⟩).stateFlag = .ready ∧ (State.resetOf scanned).stateFlag = .uninit ∧
    (State.resetOf scanned).rk.length = scanned.roundCount := by decide

/-- Witness of EncryptMeaning and DecryptMeaning: a wrong size, and the right one in both states. -/
theorem witness_BlockMeaning : ∀ flag, algOk (offered scanned flag ⟨0#32, []⟩).alg = true ∧ (offered scanned flag ⟨0#32, []⟩).RkShape ∧
    (offered scanned flag ⟨0#32, []⟩).stateFlag = flag ∧ [0x01#8].length ≠ scanned.blockSize ∧
    [0x01#8, 0x02#8].length = scanned.blockSize :=
  fun flag => ⟨scanned_ok, offered_shape flag _, rfl, by decide, by decide⟩

/-- Witness of ZeroizeMeaning: in READY, keys loaded. -/
theorem witness_ZeroizeMeaning : (offered scanned .ready ⟨0#32, []⟩).rk.length = scanned.roundCount := by decide

/-- Witness of InfoRecordLayout, DeriveContract and RoundSizeLaw. -/
theorem witness_algOk : algOk scanned = true ∧ (derive computed [0x12, 0x34]).val = some [[0xed, 0x34], [0xed, 0x34]] ∧
    [0x01#8, 0x02#8].length = scanned.blockSize ∧ [0x11#8, 0x22#8].length = scanned.rkBytes := by decide +kernel

/-- Witness of RekeyReplacesTheKey. -/
theorem witness_RekeyReplacesTheKey : (offered scanned .ready ⟨0#32, []⟩).RkShape ∧
    (offered scanned .ready ⟨0#32, []⟩).stateFlag = .ready ∧ [0x12#8, 0x34#8].length ∈ scanned.keySizes :=
  ⟨offered_shape _ _, rfl, by decide⟩

/-- Witness of SubstituteIsTheTable, SubstituteInverts, SubstituteAccessPattern (both strategies), InverseLawsBothWays. -/
theorem witness_Conforming : Conforming scanned ∧ scanned.sboxStrategy = .fullScan ∧
    Conforming computed ∧ computed.sboxStrategy ≠ .fullScan :=
  ⟨scanned_conforms, rfl, computed_conforms, by decide⟩

/-- Witness of DeriveIterates: a length outside, a length inside, an iteration. -/
theorem witness_DeriveIterates : [0x01#8].length ∉ scanned.keySizes ∧ [0x01#8, 0x02#8].length ∈ scanned.keySizes ∧
    1 < scanned.roundCount := by decide

/-- Witness of RoundInverseLaw. -/
theorem witness_RoundInverseLaw : Conforming scanned ∧ [0x01#8, 0x02#8].length = scanned.blockSize ∧
    [0x11#8, 0x22#8].length = scanned.rkBytes := ⟨scanned_conforms, by decide, by decide⟩

/-- Witness of EncryptRoundsIterate and DecryptRoundsIterate: there is a round, the last one. -/
theorem witness_RoundsIterate : 1 < scanned.roundCount ∧ 1 = scanned.roundCount - 1 := by decide

/-- Witness of EncryptDecryptRoundTrip. -/
theorem witness_EncryptDecryptRoundTrip : Conforming (offered scanned .ready ⟨0#32, []⟩).alg ∧
    (offered scanned .ready ⟨0#32, []⟩).RkShape ∧ (offered scanned .ready ⟨0#32, []⟩).stateFlag = .ready ∧
    [0x01#8, 0x02#8].length = scanned.blockSize := ⟨scanned_conforms, offered_shape _ _, rfl, by decide⟩

/-- Witness of BlockCommandsAreStateless and CommandsClearTheTransients: both block commands answer a next state. -/
theorem witness_BlockCommandsAreStateless : (offered scanned .ready ⟨0#32, []⟩).TransientsClear ∧
    (∃ t, exec (.encrypt [0x01, 0x02]) (offered scanned .ready ⟨0#32, []⟩) = .next t) ∧
    ∃ t, exec (.decrypt [0x01, 0x02]) (offered scanned .ready ⟨0#32, []⟩) = .next t :=
  ⟨offered_clear _ _, ⟨_, rfl⟩, ⟨_, rfl⟩⟩

/-- Witness of BlockCommandsAreDeterministic: two states that differ in a channel and the trace. -/
theorem witness_BlockCommandsAreDeterministic :
    let s := offered scanned .ready ⟨0#32, []⟩
    let t := { s with cmd := none, trace := [.rkRead 0] }
    t.alg = s.alg ∧ t.stateFlag = s.stateFlag ∧ t.rk = s.rk ∧
      (∃ s', exec (.encrypt [0x01, 0x02]) s = .next s') ∧ ∃ t', exec (.encrypt [0x01, 0x02]) t = .next t' :=
  ⟨rfl, rfl, rfl, ⟨_, rfl⟩, ⟨_, rfl⟩⟩

/-- Witness of InterleavingIsInvisible. -/
theorem witness_InterleavingIsInvisible :
    ∃ t u v, exec (.encrypt [0x01, 0x02]) (offered scanned .ready ⟨0#32, []⟩) = .next t ∧
      exec (.decrypt [0x03, 0x04]) t = .next u ∧ exec (.decrypt [0x03, 0x04]) (offered scanned .ready ⟨0#32, []⟩) = .next v :=
  ⟨_, _, _, rfl, rfl, rfl⟩

/-- Witness of ConstantTime and OnlyBlocksLeaveTheEngine: the same command word, another block and another key. -/
theorem witness_ConstantTime :
    let c : Command := ⟨0x00020002#32, [0x01, 0x02]⟩
    let d : Command := ⟨0x00020002#32, [0xfe, 0x80]⟩
    let s := offered scanned .ready c
    let t := { offered scanned .ready d with rk := [[0x00, 0xff], [0x00, 0x00]] }
    s.CanRun c ∧ t.CanRun d ∧ t.alg = s.alg ∧ t.stateFlag = s.stateFlag ∧ d.word = c.word ∧ s.RkShape ∧ t.RkShape ∧ t.rk ≠ s.rk :=
  ⟨offered_canRun _ _ (by decide), canRun_of scanned_ok rfl (by decide) rfl rfl, rfl, rfl, rfl, offered_shape _ _,
    ⟨rfl, by decide⟩, by decide⟩

/-- Witness of OnlyBlocksLeaveTheEngine's last clause: an INFO, and an ENCRYPT that fails. -/
theorem witness_OnlyBlocksLeaveTheEngine :
    (∀ b, decode ⟨0x00000005#32, []⟩ ≠ .ok (.encrypt b) ∧ decode ⟨0x00000005#32, []⟩ ≠ .ok (.decrypt b)) ∧
    (answer (offered scanned .ready ⟨0x00010002#32, [0x00]⟩)).map Response.status = some 0x02 :=
  ⟨fun b => by rw [show decode ⟨0x00000005#32, []⟩ = .ok .info by decide]; simp, by decide +kernel⟩

/-- The flag a step leaves. -/
def flagAfter (s : State) : Option StateFlag :=
  match step s with
  | .next t => some t.stateFlag
  | _ => none

/-- The round keys a step leaves. -/
def keysAfter (s : State) : Option (List Bytes) :=
  match step s with
  | .next t => some t.rk
  | _ => none

/-- Witness of StateTransitions and RoundKeyWriters: KEYLOAD, ZEROIZE and reset each change `STATE` and `RK`. -/
theorem witness_StateTransitions :
    flagAfter (offered scanned .uninit ⟨0x00020001#32, [0x12, 0x34]⟩) = some .ready ∧
    flagAfter (offered scanned .ready ⟨0x00000004#32, []⟩) = some .uninit ∧
    keysAfter (offered scanned .ready ⟨0x00000004#32, []⟩) = some [[0x00, 0x00], [0x00, 0x00]] ∧
    flagAfter { offered scanned .ready ⟨0x00000005#32, []⟩ with host := [.reset] } = some .uninit := by decide +kernel

/-- Witness of ConstantsNeverChange and StepKeepsTheInvariant: an idle step. -/
theorem witness_ConstantsNeverChange : step (State.resetOf scanned) = .next (State.resetOf scanned) :=
  step_scanned rfl rfl

/-- Witness of StepKeepsTheInvariant. -/
theorem witness_StepKeepsTheInvariant : (offered scanned .uninit ⟨0x00000005#32, []⟩).Inv ∧
    ∃ t, step (offered scanned .uninit ⟨0x00000005#32, []⟩) = .next t :=
  ⟨⟨scanned_ok, offered_shape _ _, ⟨fun _ => rfl, fun h => (by cases h)⟩, offered_clear _ _, fun q h => by cases h⟩,
    _, step_scanned rfl rfl⟩

/-- Witness of StepKeepsTheInvariant in READY, with a derived key. -/
theorem witness_StepKeepsTheInvariant_ready :
    ({ offered scanned .ready ⟨0x00000005#32, []⟩ with rk := [[0xed, 0x34], [0xed, 0x34]] } : State).Inv :=
  ⟨scanned_ok, ⟨rfl, by decide⟩, ⟨fun h => (by cases h), fun _ => ⟨[0x12, 0x34], by decide +kernel⟩⟩, ⟨rfl, rfl, rfl, rfl⟩,
    fun q h => by cases h⟩

/-- Witness of ResetMeetsTheInvariant. -/
theorem witness_ResetMeetsTheInvariant : algOk scanned = true := scanned_ok

/-- Witness of InstancesAreIndependent: the second of two instances. -/
theorem witness_InstancesAreIndependent :
    stepInstance 1 [State.reset, State.resetOf scanned] = .next [State.reset, State.resetOf scanned] := by
  have h : step (State.resetOf scanned) = .next (State.resetOf scanned) := witness_ConstantsNeverChange
  simp [stepInstance, h]

end Sys2Proof.Tests
end

section
/-! PROOFS. R7's other direction: an inverse on one side, over finitely many blocks or bytes, is an inverse on both. -/

namespace Sys2Proof.Machine

/-- The pigeonhole step behind R7's note: on a finite set that `f` maps into itself, a left inverse of `f` is a right inverse. -/
theorem leftInvOn_swap_of_finite {α : Type} {s : Set α} (hs : s.Finite) {f g : α → α} (hf : Set.MapsTo f s s)
    (hgf : Set.LeftInvOn g f s) : Set.LeftInvOn f g s :=
  have hsurj : Set.SurjOn f s s := ((hs.injOn_iff_bijOn_of_mapsTo hf).mp hgf.injOn).surjOn
  hsurj.leftInvOn_of_rightInvOn hgf

/-- On the blocks of one size, which are finitely many, a left inverse of an operation that keeps the size is a right inverse. -/
theorem apply_inverse_of_length {n : Nat} {f g : Bytes → Bytes} (hf : ∀ b, b.length = n → (f b).length = n)
    (hgf : ∀ b, b.length = n → g (f b) = b) {b : Bytes} (hb : b.length = n) : f (g b) = b :=
  leftInvOn_swap_of_finite (List.finite_length_eq Byte n) hf hgf hb

theorem keymix_keymixInv {a : Alg} (ha : Conforming a) {b k : Bytes} (hb : b.length = a.blockSize)
    (hk : k.length = a.rkBytes) : keymix a (keymixInv a b k) k = b :=
  apply_inverse_of_length (f := (keymix a · k)) (g := (keymixInv a · k))
    (fun _ hx => keymix_length ha.1 hx hk) (fun x hx => ha.2.1 x k hx hk) hb

theorem diffuse_diffuseInv {a : Alg} (ha : Conforming a) {b : Bytes} (hb : b.length = a.blockSize) :
    diffuse a (diffuseInv a b) = b :=
  apply_inverse_of_length (fun _ => diffuse_length ha.1) ha.2.2 hb

/-- Needs the check of the tables only, so it holds of every checked record. -/
theorem sbox_sboxInv {a : Alg} (ha : algOk a = true) (y : Byte) :
    byteAt a.sbox (byteAt a.sboxInv y.toNat).toNat = y := by
  obtain ⟨-, -, hinv⟩ := tables_of_algOk ha
  exact leftInvOn_swap_of_finite (f := fun x : Byte => byteAt a.sbox x.toNat) (g := fun x : Byte => byteAt a.sboxInv x.toNat)
    Set.finite_univ (Set.mapsTo_univ _ _) (fun x _ => hinv x) (Set.mem_univ y)

/-- Settles O31: each law is the other side of one `Conforming` states, by finiteness. -/
theorem inverseLawsBothWays : Obligations.InverseLawsBothWays := fun _ ha =>
  ⟨fun _ _ => keymix_keymixInv ha, fun _ => diffuse_diffuseInv ha, sbox_sboxInv ha.1⟩

end Sys2Proof.Machine
end

section
/-! PROOFS. What a step can do, said once: a reset, one whole command ending in its response, or a move of the host on the channels. The
writers of `STATE` and `RK` (R21, R22), the constants (R25), the transients (R26) and the invariant (R23) are read off it. -/

namespace Sys2Proof.Machine

/-! ## The fields of a response word (R62) -/

theorem responseWord_status (st : Status) (flag : StateFlag) (n : Nat) (q : Bytes) :
    (Response.mk (responseWord st flag n) q).status = st.code := by
  have hst := st.code.isLt
  rw [Response.status, field_of_toNat (v := st.code.toNat) (by rw [responseWord_toNat]; split <;> omega)]
  simp

theorem responseWord_ready (st : Status) (flag : StateFlag) (n : Nat) (q : Bytes) :
    (Response.mk (responseWord st flag n) q).ready = flag.readyBit :=
  BitVec.getLsbD_append.trans (BitVec.getLsbD_append.trans (by simp))

theorem responseWord_reserved (st : Status) (flag : StateFlag) (n : Nat) (q : Bytes) :
    (Response.mk (responseWord st flag n) q).reserved = 0 := by
  have hst := st.code.isLt
  exact field_of_toNat (v := 0) (by rw [responseWord_toNat]; split <;> omega)

theorem responseWord_len (st : Status) (flag : StateFlag) (n : Nat) (q : Bytes) :
    (Response.mk (responseWord st flag n) q).len = responseLen n := by
  have hst := st.code.isLt
  have hlen := (responseLen n).isLt
  rw [Response.len, field_of_toNat (v := (responseLen n).toNat) (by rw [responseWord_toNat]; split <;> omega)]
  simp

theorem responseLen_toNat {n : Nat} (h : n < 65536) : (responseLen n).toNat = n := by
  rw [responseLen, if_pos h, BitVec.toNat_ofNat, Nat.mod_eq_of_lt h]

theorem Status.code_le (st : Status) : st.code.toNat ≤ 4 := by cases st <;> decide

theorem responseWord_framed (st : Status) (flag : StateFlag) (q : Bytes) :
    (Response.mk (responseWord st flag q.length) q).Framed flag :=
  ⟨responseWord_ready .., responseWord_reserved .., (responseWord_status ..).symm ▸ st.code_le,
    fun h => by rw [responseWord_len]; exact responseLen_toNat h⟩

/-! ## What a command and a step can do to `STATE` and `RK` -/

/-- What a command that decodes to `d` can do to `STATE` and `RK`, from `s` to `t`: keep both; load a key of a valid length into an
uninitialised engine (R141); zeroise (R170). -/
def KeyEffect (d : Except Illegal Instr) (s t : State) : Prop :=
  (t.stateFlag = s.stateFlag ∧ t.rk = s.rk) ∨
  (∃ key, d = .ok (.keyload key) ∧ key.length ∈ s.alg.keySizes ∧ s.stateFlag = .uninit ∧ t.stateFlag = .ready ∧
    t.rk = overwrite 0 (expand s.alg key).val.1 s.rk) ∨
  (d = .ok .zeroize ∧ t.stateFlag = .uninit ∧ t.rk = overwrite 0 (zeroKeys s.alg) s.rk)

/-- A block command ends in its response and keeps the constants, `STATE` and `RK` (R151). -/
theorem blockCommand_responds (s : State) (b : Bytes) (r : Nat) (f : Nat → Bytes → Traced Bytes) :
    ∃ (u : State) (st : Status) (q : Bytes),
      s.blockCommand b r f = u.respond st q ∧ u.alg = s.alg ∧ u.stateFlag = s.stateFlag ∧ u.rk = s.rk := by
  by_cases hb : b.length = s.alg.blockSize
  · cases hs : s.stateFlag with
    | uninit => exact ⟨_, _, _, blockCommand_uninit s b r f hb hs, rfl, hs, rfl⟩
    | ready => exact ⟨_, _, _, blockCommand_ready s b r f hb hs, rfl, hs, rfl⟩
  · exact ⟨_, _, _, blockCommand_wrongSize s b r f hb, rfl, rfl, rfl⟩

/-- Every instruction ends in its response and has one of the three effects. -/
theorem exec_responds (i : Instr) (s : State) :
    ∃ u st q, exec i s = .next (u.respond st q) ∧ u.alg = s.alg ∧ KeyEffect (.ok i) s u := by
  cases i with
  | keyload key =>
    simp only [exec, execKeyload]
    split
    · exact ⟨_, _, _, rfl, rfl, .inl ⟨rfl, rfl⟩⟩
    next hsize =>
      split
      · exact ⟨_, _, _, rfl, rfl, .inl ⟨rfl, rfl⟩⟩
      next hready =>
        have hvalid : validKeySize s.alg key.length = true := eq_true_of_ne_false hsize
        have hmem : key.length ∈ s.alg.keySizes := of_decide_eq_true hvalid
        have huninit : s.stateFlag = .uninit := by cases h : s.stateFlag <;> simp_all
        refine ⟨_, _, _, rfl, ?_, .inr (.inl ⟨key, rfl, hmem, huninit, rfl, ?_⟩)⟩ <;> simp [writeKeysFrom_eq]
  | encrypt b =>
    have ⟨u, st, q, h, halg, hkept⟩ := blockCommand_responds s b 0 (encryptLoop s.alg s.rk s.alg.roundCount)
    exact ⟨u, st, q, congrArg Host.Outcome.next h, halg, .inl hkept⟩
  | decrypt b =>
    have ⟨u, st, q, h, halg, hkept⟩ :=
      blockCommand_responds s b (s.alg.roundCount - 1) (decryptLoop s.alg s.rk s.alg.roundCount)
    exact ⟨u, st, q, congrArg Host.Outcome.next h, halg, .inl hkept⟩
  | zeroize => refine ⟨_, _, _, rfl, ?_, .inr (.inr ⟨rfl, rfl, ?_⟩)⟩ <;> simp [writeKeysFrom_eq]
  | info => exact ⟨_, _, _, rfl, rfl, .inl ⟨rfl, rfl⟩⟩

/-- Every command, an illegal one included, ends in its response and has one of the three effects. -/
theorem runCommand_responds (s : State) (c : Command) :
    ∃ u st q, s.runCommand c = .next (u.respond st q) ∧ u.alg = s.alg ∧ KeyEffect (decode c) s u := by
  cases h : decode c with
  | ok i => rw [runCommand_ok h]; exact exec_responds i s.accept
  | error e => rw [runCommand_error h]; exact ⟨_, _, _, rfl, rfl, .inl ⟨rfl, rfl⟩⟩

/-- What a step that answers a next state was: the reset, one whole command, or a move of the host on the channels. -/
theorem step_next_cases {s t : State} (h : step s = .next t) :
    (∃ rest, s.host = .reset :: rest ∧ t = ({ s with host := rest }).assertReset) ∨
    (∃ c u st q, s.CanRun c ∧ t = u.respond st q ∧ u.alg = s.alg ∧ KeyEffect (decode c) s u) ∨
    (t = { s with cmd := t.cmd, rsp := t.rsp, host := t.host } ∧ (t.rsp = s.rsp ∨ t.rsp = none)) := by
  have ha : algOk s.alg = true := by
    by_contra hbad
    simp [step_of_not_algOk (Bool.eq_false_iff.mpr hbad)] at h
  rcases step_cases ha with ⟨rest, hhost, hstep⟩ | ⟨c, hrun, hstep⟩ | ⟨hhost, hstep⟩ | ⟨c, -, -, hstep⟩ <;> rw [hstep] at h
  · exact .inl ⟨rest, hhost, (Host.Outcome.next.inj h).symm⟩
  · obtain ⟨u, st, q, hu, halg, heff⟩ := runCommand_responds s c
    exact .inr (.inl ⟨c, u, st, q, hrun, Host.Outcome.next.inj (h.symm.trans hu), halg, heff⟩)
  · exact .inr (.inr (hostTurn_frame hhost h))
  · cases h

/-! ## The invariant (R23) -/

/-- An uninitialised engine with a zeroised register file meets R22 and R23. -/
theorem keys_of_zeroised {s : State} (hflag : s.stateFlag = .uninit) (hrk : s.rk = zeroKeys s.alg) :
    s.RkShape ∧ s.KeyInvariant := by
  refine ⟨?_, fun _ => hrk, fun h => by simp [hflag] at h⟩
  rw [State.RkShape, hrk]
  exact zeroKeys_shape s.alg

/-- A READY engine that holds the expansion of a valid key meets R22 and R23. -/
theorem keys_of_expanded {s : State} (ha : algOk s.alg = true) {key : Bytes} (hkey : key.length ∈ s.alg.keySizes)
    (hflag : s.stateFlag = .ready) (hrk : s.rk = (expand s.alg key).val.1) : s.RkShape ∧ s.KeyInvariant := by
  refine ⟨?_, fun h => by simp [hflag] at h, fun _ => ⟨key, ?_⟩⟩
  · rw [State.RkShape, hrk]
    exact ⟨expand_count s.alg key, expand_lengths ha hkey⟩
  · rw [derive_val, if_pos hkey, hrk]

/-- A command keeps R22 and R23: a load and a zeroisation write every register of the file. -/
theorem KeyEffect.keeps_keys {d : Except Illegal Instr} {s t : State} (heff : KeyEffect d s t) (halg : t.alg = s.alg)
    (ha : algOk s.alg = true) (hshape : s.RkShape) (hkeys : s.KeyInvariant) : t.RkShape ∧ t.KeyInvariant := by
  have hcount : s.rk.length = s.alg.roundCount := hshape.1
  rcases heff with ⟨hflag, hrk⟩ | ⟨key, -, hkey, -, hflag, hrk⟩ | ⟨-, hflag, hrk⟩
  · rw [State.RkShape, State.KeyInvariant, halg, hflag, hrk]
    exact ⟨hshape, hkeys⟩
  · rw [overwrite_all _ _ (by simpa using hcount), ← halg] at hrk
    rw [← halg] at ha hkey
    exact keys_of_expanded ha hkey hflag hrk
  · rw [overwrite_all _ _ (hcount.trans (zeroKeys_shape _).1.symm), ← halg] at hrk
    exact keys_of_zeroised hflag hrk

/-- Issuing a response clears the transients and frames the response (R26, R62); the rest of the invariant is the state's own. -/
theorem respond_inv {s : State} (ha : algOk s.alg = true) (hkeys : s.RkShape ∧ s.KeyInvariant) (st : Status) (q : Bytes) :
    (s.respond st q).Inv :=
  ⟨ha, hkeys.1, hkeys.2, respond_transientsClear s st q, fun _ h => Option.some.inj h ▸ responseWord_framed st s.stateFlag q⟩

theorem resetOf_inv {a : Alg} (ha : algOk a = true) : (State.resetOf a).Inv :=
  have hkeys := keys_of_zeroised (State.resetOf_stateFlag a) (State.resetOf_rk a)
  ⟨ha, hkeys.1, hkeys.2, ⟨rfl, rfl, rfl, rfl⟩, fun _ h => nomatch h⟩

/-- Reset gives the reset state but for the script, of which the invariant says nothing (R250). -/
theorem assertReset_inv {s : State} (ha : algOk s.alg = true) : s.assertReset.Inv := resetOf_inv ha

/-- A move on the channels that issues no response keeps the invariant. -/
theorem inv_of_channelFrame {s t : State} (ht : t = { s with cmd := t.cmd, rsp := t.rsp, host := t.host })
    (hrsp : t.rsp = s.rsp ∨ t.rsp = none) (hinv : s.Inv) : t.Inv := by
  obtain ⟨ha, hshape, hkeys, hclear, hframed⟩ := hinv
  rw [ht]
  refine ⟨ha, hshape, hkeys, hclear, fun q hq => ?_⟩
  rcases hrsp with hsame | hnone
  · exact hframed q (hsame ▸ hq)
  · exact nomatch hnone.symm.trans hq

/-- Settles O48, by what a step can be: a reset, a command ending in its response, a move on the channels. -/
theorem stepKeepsTheInvariant : Obligations.StepKeepsTheInvariant := by
  intro s t hinv hstep
  rcases step_next_cases hstep with ⟨rest, -, rfl⟩ | ⟨c, u, st, q, -, rfl, halg, heff⟩ | ⟨ht, hrsp⟩
  · exact assertReset_inv (s := { s with host := rest }) hinv.1
  · obtain ⟨ha, hshape, hkeys, -⟩ := hinv
    exact respond_inv (halg ▸ ha) (heff.keeps_keys halg ha hshape hkeys) st q
  · exact inv_of_channelFrame ht hrsp hinv

/-- The record of `State.reset` is an `Alg` of BCCORE: a closed check, evaluated. -/
theorem resetAlg_ok : algOk resetAlg = true := by decide +kernel

/-- Settles O49: the reset state is zeroised, and `State.reset`'s record passes the check. -/
theorem resetMeetsTheInvariant : Obligations.ResetMeetsTheInvariant :=
  ⟨fun _ => resetOf_inv, resetOf_inv resetAlg_ok⟩

/-! ## The writers of `STATE`, `RK` and the constants -/

/-- A step that keeps `STATE` makes neither of R21's transitions. -/
theorem no_transition {flag : StateFlag} {P Q : Prop} :
    (flag = .uninit → flag = .ready → P) ∧ (flag = .ready → flag = .uninit → Q) := by
  cases flag <;> simp

/-- Settles O44: of the steps that change `STATE`, only the key load ends in READY, only ZEROIZE and reset end in UNINIT. -/
theorem stateTransitions : Obligations.StateTransitions := by
  intro s t hstep
  rcases step_next_cases hstep with ⟨rest, hhost, rfl⟩ | ⟨c, u, st, q, hrun, rfl, -, heff⟩ | ⟨ht, -⟩
  · exact ⟨fun _ h => (nomatch h), fun _ _ => .inl ⟨rest, hhost⟩⟩
  · rcases heff with ⟨hflag, -⟩ | ⟨key, hdec, hkey, huninit, hready, -⟩ | ⟨hdec, huninit, -⟩
    · exact hflag ▸ no_transition
    · exact ⟨fun _ _ => ⟨c, key, hrun, hdec, hkey⟩, fun h => by simp [huninit] at h⟩
    · exact ⟨fun _ h => by simp [huninit] at h, fun _ _ => .inr ⟨c, hrun, hdec⟩⟩
  · have hflag : t.stateFlag = s.stateFlag := by rw [ht]
    exact hflag ▸ no_transition

/-- Settles O45: the other commands and the host's moves keep `RK`. -/
theorem roundKeyWriters : Obligations.RoundKeyWriters := by
  intro s t hstep hchanged
  rcases step_next_cases hstep with ⟨rest, hhost, -⟩ | ⟨c, u, st, q, hrun, rfl, -, heff⟩ | ⟨ht, -⟩
  · exact .inl ⟨rest, hhost⟩
  · rcases heff with ⟨-, hrk⟩ | ⟨key, hdec, hkey, huninit, -⟩ | ⟨hdec, -⟩
    · exact absurd hrk hchanged
    · exact .inr ⟨c, hrun, .inr ⟨key, hdec, hkey, huninit⟩⟩
    · exact .inr ⟨c, hrun, .inl hdec⟩
  · exact absurd (by rw [ht]) hchanged

/-- Settles O46, by what a step can be. -/
theorem constantsNeverChange : Obligations.ConstantsNeverChange := by
  intro s t hstep
  rcases step_next_cases hstep with ⟨_, -, rfl⟩ | ⟨_, _, _, _, -, rfl, halg, -⟩ | ⟨ht, -⟩
  · rfl
  · exact halg
  · rw [ht]

/-! ## The transients and the reset state -/

/-- Settles O47: every instruction ends in its response, which clears them. -/
theorem commandsClearTheTransients : Obligations.CommandsClearTheTransients := fun i s =>
  have ⟨t, ht, _, _, _, hclear, _⟩ := exec_next i s
  ⟨t, ht, hclear⟩

theorem eq_zero_of_mem_zeros {n : Nat} {b : Byte} (h : b ∈ zeros n) : b = 0x00#8 := List.eq_of_mem_replicate h

/-- Settles O9: the registers and the transients of the reset state are vectors of zeros. -/
theorem resetStateIsZeroised : Obligations.ResetStateIsZeroised := by
  intro a
  obtain ⟨hcount, hwidth⟩ := resetOf_rkShape a
  refine ⟨rfl, hcount, fun k hk => ⟨hwidth k hk, fun b hb => ?_⟩, fun b hb => ?_, rfl, rfl, rfl, rfl, rfl⟩
  · have hzero : k = zeros a.rkBytes := List.eq_of_mem_replicate hk
    exact eq_zero_of_mem_zeros (hzero ▸ hb)
  · rcases List.mem_append.mp hb with hb | hb
    · exact (List.mem_append.mp hb).elim eq_zero_of_mem_zeros eq_zero_of_mem_zeros
    · exact eq_zero_of_mem_zeros hb

end Sys2Proof.Machine
end

section
/-! PROOFS. One command at a time (R48, R49): the step of an engine that can run, what waits while it cannot, block commands that leave
nothing behind for the next caller (R52), and instances that share nothing (R53). -/

namespace Sys2Proof.Machine

/-! ## The engine runs or is held back -/

/-- Settles O7: the step is the whole command, and a command that decodes is its instruction's meaning. -/
theorem stepRunsTheDecodedCommand : Obligations.StepRunsTheDecodedCommand := fun _ _ _ hrun hdec =>
  (step_of_canRun hrun).trans (runCommand_ok hdec)

/-- Only a checked record steps to a next state (U8, U27). -/
theorem algOk_of_step_next {s t : State} (h : step s = .next t) : algOk s.alg = true := by
  by_contra hbad
  simp [step_of_not_algOk (Bool.eq_false_iff.mpr hbad)] at h

/-- What the host's turn, reset apart, can do to the command channel (R60, R260): nothing, fill it when it is empty, or lengthen the
payload of the command on it. -/
theorem hostTurn_cmd_cases {s t : State} (hh : ∀ rest, s.host ≠ .reset :: rest) (h : s.hostTurn = .next t) :
    t.cmd = s.cmd ∨
    (s.cmd = none ∧ ∃ c rest, s.host = .command c :: rest ∧ t.cmd = some c) ∨
    (∃ c bs, s.cmd = some c ∧ t.cmd = some { c with payload := c.payload ++ bs }) := by
  unfold State.hostTurn at h
  split at h
  · cases h; exact .inl rfl
  next c rest hhost =>
    split at h <;> cases h
    next hempty => exact .inr (.inl ⟨hempty, c, rest, hhost, rfl⟩)
    · exact .inl rfl
  next bs rest _ =>
    unfold State.receivePayload at h
    split at h
    next c hc =>
      split at h <;> cases h
      exact .inr (.inr ⟨c, bs, hc, rfl⟩)
    · split at h <;> cases h
      exact .inl rfl
  · split at h <;> cases h <;> exact .inl rfl
  · cases h; exact .inl rfl
  next rest hhost => exact absurd hhost (hh rest)

/-- A command on the channel stays through the host's turn, its payload at most lengthened (R260). -/
theorem hostTurn_keeps_command {s t : State} (hh : ∀ rest, s.host ≠ .reset :: rest) (h : s.hostTurn = .next t) {c : Command}
    (hc : s.cmd = some c) : ∃ bs, t.cmd = some { c with payload := c.payload ++ bs } := by
  rcases hostTurn_cmd_cases hh h with hsame | ⟨hempty, -⟩ | ⟨d, bs, hd, ht⟩
  · exact ⟨[], by simp [hsame, hc]⟩
  · exact nomatch hempty.symm.trans hc
  · cases hd.symm.trans hc
    exact ⟨bs, ht⟩

/-- An empty channel stays empty through the host's turn, or receives the command the host offers (R60). -/
theorem hostTurn_of_cmd_none {s t : State} (hh : ∀ rest, s.host ≠ .reset :: rest) (h : s.hostTurn = .next t)
    (hempty : s.cmd = none) : t.cmd = none ∨ ∃ c rest, s.host = .command c :: rest ∧ t.cmd = some c := by
  rcases hostTurn_cmd_cases hh h with hsame | ⟨-, hoffer⟩ | ⟨c, -, hc, -⟩
  · exact .inl (hsame.trans hempty)
  · exact .inr hoffer
  · exact nomatch hempty.symm.trans hc

/-- Settles O12: the step of a held-back engine is the host's turn, which touches the channels and the script only. -/
theorem engineHeldBack : Obligations.EngineHeldBack := by
  intro s t hh hheld hstep
  have hturn : s.hostTurn = .next t := (step_of_heldBack (algOk_of_step_next hstep) hheld).symm.trans hstep
  obtain ⟨hframe, hrsp⟩ := hostTurn_frame hh hturn
  have hkept (c : Command) (hc : s.cmd = some c) := hostTurn_keeps_command hh hturn hc
  have hempty := hostTurn_of_cmd_none hh hturn
  rw [hframe]
  exact ⟨rfl, rfl, rfl, rfl, rfl, rfl, rfl, rfl, hrsp, hkept, hempty⟩

/-! ## Interleaved block commands (R52) -/

/-- ENCRYPT and DECRYPT are block commands whose first round and rounds are fixed by the constants and the round keys (R142, R143). -/
theorem exec_eq_blockCommand {i : Instr} {b : Bytes} (hi : i = .encrypt b ∨ i = .decrypt b) (a : Alg) (rk : List Bytes) :
    ∃ r f, ∀ s : State, s.alg = a → s.rk = rk → exec i s = .next (s.blockCommand b r f) := by
  rcases hi with rfl | rfl
  · exact ⟨0, encryptLoop a rk a.roundCount, fun s halg hrk => by subst halg hrk; rfl⟩
  · exact ⟨a.roundCount - 1, decryptLoop a rk a.roundCount, fun s halg hrk => by subst halg hrk; rfl⟩

/-- With the rounds fixed, the response sees the constants and `STATE` only (R152). -/
theorem blockCommand_rsp_congr {s t : State} (halg : t.alg = s.alg) (hflag : t.stateFlag = s.stateFlag) (b : Bytes) (r : Nat)
    (f : Nat → Bytes → Traced Bytes) : (t.blockCommand b r f).rsp = (s.blockCommand b r f).rsp := by
  by_cases hb : b.length = s.alg.blockSize
  · have hb' : b.length = t.alg.blockSize := halg ▸ hb
    cases hs : s.stateFlag with
    | uninit =>
      rw [blockCommand_uninit s b r f hb hs, blockCommand_uninit t b r f hb' (hflag.trans hs)]
      simp [hflag]
    | ready =>
      rw [blockCommand_ready s b r f hb hs, blockCommand_ready t b r f hb' (hflag.trans hs)]
      simp [hflag]
  · rw [blockCommand_wrongSize s b r f hb, blockCommand_wrongSize t b r f (halg ▸ hb)]
    simp [hflag]

/-- The response to ENCRYPT and DECRYPT sees the constants, `STATE` and `RK` only (R152, R154). -/
theorem exec_block_rsp_congr {s t s' t' : State} {i : Instr} {b : Bytes} (hi : i = .encrypt b ∨ i = .decrypt b)
    (halg : t.alg = s.alg) (hflag : t.stateFlag = s.stateFlag) (hrk : t.rk = s.rk)
    (hs : exec i s = .next s') (ht : exec i t = .next t') : t'.rsp = s'.rsp := by
  obtain ⟨r, f, hexec⟩ := exec_eq_blockCommand hi s.alg s.rk
  cases (hexec s rfl rfl).symm.trans hs
  cases (hexec t halg hrk).symm.trans ht
  exact blockCommand_rsp_congr halg hflag b r f

/-- ENCRYPT and DECRYPT keep the constants, `STATE` and `RK` (R151). -/
theorem exec_block_keeps {s t : State} {i : Instr} {b : Bytes} (hi : i = .encrypt b ∨ i = .decrypt b) (h : exec i s = .next t) :
    t.alg = s.alg ∧ t.stateFlag = s.stateFlag ∧ t.rk = s.rk := by
  obtain ⟨r, f, hexec⟩ := exec_eq_blockCommand hi s.alg s.rk
  cases (hexec s rfl rfl).symm.trans h
  obtain ⟨u, st, q, hu, hkept⟩ := blockCommand_responds s b r f
  rw [hu]
  exact hkept

/-- Settles O41: the first command keeps all that the response to the second sees. -/
theorem interleavingIsInvisible : Obligations.InterleavingIsInvisible := by
  intro s t u v i j b c hi hj ht hu hv
  obtain ⟨halg, hflag, hrk⟩ := exec_block_keeps hi ht
  exact exec_block_rsp_congr hj halg hflag hrk hv hu

/-! ## Several instances (R53) -/

/-- What a step of entry `i` that answers a next system was: nothing, where the system has no such entry, or that machine's own step. -/
theorem stepInstance_next_cases {i : Nat} {sys sys' : List State} (h : stepInstance i sys = .next sys') :
    (sys[i]? = none ∧ sys' = sys) ∨ ∃ s s', sys[i]? = some s ∧ step s = .next s' ∧ sys' = sys.set i s' := by
  unfold stepInstance at h
  split at h
  next hnone => exact .inl ⟨hnone, (Host.Outcome.next.inj h).symm⟩
  next s hs =>
    split at h <;> cases h
    next s' hstep => exact .inr ⟨s, s', hs, hstep, rfl⟩

/-- Settles O50: only entry `i` of the system is set, to the state its own step gives. -/
theorem instancesAreIndependent : Obligations.InstancesAreIndependent := by
  intro i sys sys' h
  rcases stepInstance_next_cases h with ⟨hnone, rfl⟩ | ⟨s, s', hs, hstep, rfl⟩
  · exact ⟨rfl, fun _ _ => rfl, fun s hs => nomatch hnone.symm.trans hs⟩
  · obtain ⟨hi, -⟩ := List.getElem?_eq_some_iff.mp hs
    refine ⟨List.length_set, fun j hj => List.getElem?_set_ne hj.symm, fun s₀ hs₀ => ?_⟩
    cases hs.symm.trans hs₀
    exact ⟨s', hstep, List.getElem?_set_self hi⟩

end Sys2Proof.Machine
end

section
/-! PROOFS. The encoding (R60 to R68): what decoding to an instruction says of a command's fields, that a complete command is its fields,
and the steps by which a command and its payload reach the engine. -/

namespace Sys2Proof

/-! ## The fields of a command word (R61) -/

theorem Command.opcode_toNat (c : Command) : c.opcode.toNat = c.word.toNat % 256 := by
  simp [Command.opcode]

theorem Command.rsvd_toNat (c : Command) : c.rsvd.toNat = c.word.toNat / 256 % 256 := by
  simp [Command.rsvd, Nat.shiftRight_eq_div_pow]

theorem Command.len_toNat (c : Command) : c.len.toNat = c.word.toNat / 65536 := by
  have hword := c.word.isLt
  simp only [Command.len, BitVec.extractLsb'_toNat, Nat.shiftRight_eq_div_pow]
  omega

theorem Command.complete_iff (c : Command) : c.complete = true ↔ c.payload.length = c.len.toNat := decide_eq_true_iff

/-- With RSVD = 0 and the whole payload there, nothing of a command is lost in its OPCODE and its payload (R60, R61). -/
theorem Command.eq_commandWord {c : Command} (hrsvd : c.rsvd = 0) (hfull : c.complete = true) :
    c = ⟨commandWord c.payload.length c.opcode, c.payload⟩ := by
  have hlen : c.payload.length = c.len.toNat := c.complete_iff.mp hfull
  have hzero : c.word.toNat / 256 % 256 = 0 := by rw [← c.rsvd_toNat, hrsvd]; rfl
  have hword : c.word = commandWord c.payload.length c.opcode := by
    apply BitVec.eq_of_toNat_eq
    rw [commandWord_toNat, hlen, c.len_toNat, c.opcode_toNat]
    have := c.word.isLt
    omega
  rw [← hword]

/-! ## What decoding says of a command -/

/-- The payload of an instruction's command: the operand as it is (R65), nothing in format N. -/
def Instr.operand : Instr → Bytes
  | .keyload p | .encrypt p | .decrypt p => p
  | .zeroize | .info => []

theorem Instr.wellFormed_iff (i : Instr) : i.wellFormed = true ↔ i.operand.length < 65536 := by
  cases i <;> simp [Instr.wellFormed, Instr.operand, lenFits]

theorem encode_eq (i : Instr) : encode i = ⟨commandWord i.operand.length (Laws.opcodeOf i), i.operand⟩ := by
  cases i <;> rfl

/-- What the decoder asks of the operand: a K or B command's is the payload, whatever LEN says; a format N command has LEN = 0 (R66, R67). -/
def Command.Carries (c : Command) : Instr → Prop
  | .keyload p | .encrypt p | .decrypt p => c.payload = p
  | .zeroize | .info => c.len = 0

/-- OPCODE[7:1] = 0000001 with OPCODE[0] = `b` is OPCODE 0x02 or 0x03 (R64). -/
theorem blockOpcode_iff (op : BitVec 8) (b : Bool) :
    op.extractLsb' 1 7 = 0x01#7 ∧ op.getLsbD 0 = b ↔ op = if b then 0x03#8 else 0x02#8 := by
  have hcat : (op.extractLsb' 1 7).concat (op.getLsbD 0) = op := BitVec.concat_extractLsb'_getLsb
  constructor
  · rintro ⟨hhigh, hlow⟩
    rw [← hcat, hhigh, hlow]
    cases b <;> rfl
  · rintro rfl
    cases b <;> decide

/-- The opcode map as one statement (R63, R66): a command decodes to an instruction exactly when RSVD is 0, OPCODE is the instruction's
and the command carries its operand. -/
theorem decode_eq_ok_iff (c : Command) (i : Instr) :
    decode c = .ok i ↔ c.rsvd = 0 ∧ c.opcode = Laws.opcodeOf i ∧ c.Carries i := by
  constructor
  · intro h
    unfold decode at h
    split_ifs at h with hrsvd hkey hblock hdir hzero hlen hinfo hlen <;> cases h <;> refine ⟨not_not.mp hrsvd, ?_⟩
    · exact ⟨hkey, rfl⟩
    · exact ⟨(blockOpcode_iff _ true).mp ⟨hblock, hdir⟩, rfl⟩
    · exact ⟨(blockOpcode_iff _ false).mp ⟨hblock, Bool.eq_false_iff.mpr hdir⟩, rfl⟩
    · exact ⟨hzero, hlen⟩
    · exact ⟨hinfo, hlen⟩
  · rintro ⟨hrsvd, hop, hcar⟩
    cases i with
    | keyload p | encrypt p | decrypt p =>
      have hpayload : c.payload = p := hcar
      simp [decode, Command.dir, hrsvd, hop, hpayload, Laws.opcodeOf]
    | zeroize | info =>
      have hlen : c.len = 0 := hcar
      simp [decode, hrsvd, hop, hlen, Laws.opcodeOf]

/-- A complete command carries an operand exactly when its payload is that operand (R60). -/
theorem Command.carries_iff {c : Command} (hfull : c.complete = true) (i : Instr) : c.Carries i ↔ c.payload = i.operand := by
  have hnone : c.len = 0 ↔ c.payload = [] := by
    rw [← List.length_eq_zero_iff, c.complete_iff.mp hfull, ← BitVec.toNat_inj]
    rfl
  cases i with
  | keyload p | encrypt p | decrypt p => rfl
  | zeroize | info => exact hnone

/-- Some instruction is meant exactly when RSVD is 0 and OPCODE is 1 to 5, in format N with LEN = 0 (R63, R66). -/
theorem exists_decode_eq_ok_iff (c : Command) :
    (∃ i, decode c = .ok i) ↔ c.rsvd = 0 ∧ c.opcode ≠ 0x00#8 ∧ c.opcode.toNat < 0x06 ∧
      (c.opcode = 0x04#8 ∨ c.opcode = 0x05#8 → c.len = 0) := by
  simp only [decode_eq_ok_iff]
  constructor
  · rintro ⟨i, hrsvd, hop, hcar⟩
    cases i with
    | keyload p | encrypt p | decrypt p => simp [hrsvd, hop, Laws.opcodeOf]
    | zeroize | info =>
      have hlen : c.len = 0 := hcar
      simp [hrsvd, hop, hlen, Laws.opcodeOf]
  · rintro ⟨hrsvd, hnz, hlt, hlen⟩
    have hop : c.opcode = 0x01#8 ∨ c.opcode = 0x02#8 ∨ c.opcode = 0x03#8 ∨ c.opcode = 0x04#8 ∨ c.opcode = 0x05#8 := by
      bv_omega
    rcases hop with h | h | h | h | h
    · exact ⟨.keyload c.payload, hrsvd, h, rfl⟩
    · exact ⟨.encrypt c.payload, hrsvd, h, rfl⟩
    · exact ⟨.decrypt c.payload, hrsvd, h, rfl⟩
    · exact ⟨.zeroize, hrsvd, h, hlen (.inl h)⟩
    · exact ⟨.info, hrsvd, h, hlen (.inr h)⟩

theorem exists_decode_eq_error_iff (c : Command) : (∃ e, decode c = .error e) ↔ ¬ ∃ i, decode c = .ok i := by
  cases decode c <;> simp

/-- The families of `Laws.Framed`, as one statement. -/
theorem Laws.framed (i : Instr) : Laws.Framed.Statement i := by
  cases i with
  | keyload key => exact Laws.Framed.keyload key
  | encrypt block => exact Laws.Framed.encrypt block
  | decrypt block => exact Laws.Framed.decrypt block
  | zeroize => exact Laws.Framed.zeroize
  | info => exact Laws.Framed.info

/-! ## Decoder and encoder -/

/-- Settles O1: the encoding is framed, and its fields are those of the instruction. -/
theorem decodeInvertsEncode : Obligations.DecodeInvertsEncode := by
  intro i hwf
  obtain ⟨hfull, hrsvd, hop⟩ := Laws.framed i hwf
  have hpayload : (encode i).payload = i.operand := by rw [encode_eq]
  exact ⟨hfull, (decode_eq_ok_iff _ i).mpr ⟨hrsvd, hop, ((encode i).carries_iff hfull i).mpr hpayload⟩⟩

/-- Settles O2: the instruction's OPCODE and operand are the command's, and those are the whole command. -/
theorem encodeInvertsDecode : Obligations.EncodeInvertsDecode := by
  intro c i hfull hdec
  obtain ⟨hrsvd, hop, hcar⟩ := (decode_eq_ok_iff c i).mp hdec
  have hpayload : c.payload = i.operand := (c.carries_iff hfull i).mp hcar
  refine ⟨i.wellFormed_iff.mpr ?_, ?_⟩
  · rw [← hpayload, c.complete_iff.mp hfull]
    exact c.len.isLt
  · rw [encode_eq, ← hpayload, ← hop]
    exact (Command.eq_commandWord hrsvd hfull).symm

/-- Settles O5: OPCODE decides between the two passes, and any payload is a block command's operand. -/
theorem directionBitSelectsThePass : Obligations.DirectionBitSelectsThePass := by
  intro c hrsvd
  rw [blockOpcode_iff, blockOpcode_iff]
  simp [decode_eq_ok_iff, Command.Carries, Laws.opcodeOf, hrsvd]

/-- Settles O3: closed words, evaluated. -/
theorem specWordsDecode : Obligations.SpecWordsDecode := by
  unfold Obligations.SpecWordsDecode
  decide

namespace Machine

/-! ## Illegal commands and the response word (R62, R66) -/

/-- Between commands the transients are zero, so taking an error changes the response slot alone (R221). -/
theorem raise_of_transientsClear {s : State} (hclear : s.TransientsClear) (e : Error) :
    s.raise e = { s with rsp := some ⟨responseWord e.status s.stateFlag 0, []⟩ } := by
  rw [State.raise, State.respond, clearTransients_eq hclear]
  rfl

theorem invalidCommand_word (flag : StateFlag) :
    responseWord .invalidCommand flag 0 = if flag = .ready then 0x00000104#32 else 0x00000004#32 := by
  cases flag <;> decide

/-- Settles O4: the illegal words are those no instruction is meant by, and the error is all that an illegal command does. -/
theorem illegalCommandChangesNothing : Obligations.IllegalCommandChangesNothing := by
  refine ⟨fun c => ?_, fun s c hrun hclear hillegal => ?_⟩
  · rw [exists_decode_eq_error_iff, exists_decode_eq_ok_iff]
    simp only [not_and_or, Classical.not_imp, not_not, not_lt]
    rfl
  · obtain ⟨e, he⟩ := hillegal
    rw [step_of_canRun hrun, runCommand_error he, raise_of_transientsClear (s := s.accept.start) hclear, ← invalidCommand_word]
    rfl

/-- Settles O6: each field of the response word, read off it. -/
theorem responseWordLayout : Obligations.ResponseWordLayout := by
  intro st flag q
  refine ⟨?_, ?_, responseWord_reserved .., fun h => ?_⟩
  · rw [responseWord_status]
    cases st <;> rfl
  · rw [responseWord_ready]
    cases flag <;> decide
  · rw [responseWord_len, responseLen_toNat h]

/-! ## Commands and payload bytes on the channel (R60, R260) -/

theorem dropWhile_reset_ne (moves rest : List HostMove) : moves.dropWhile (· == .reset) ≠ .reset :: rest := by
  intro h
  simpa [h] using List.head?_dropWhile_not (· == HostMove.reset) moves

/-- A complete command placed on the channel of a conforming instance can run (log entry 4). -/
theorem offer_canRun {s : State} {c : Command} (ha : algOk s.alg = true) (hfull : c.complete = true) : (s.offer c).CanRun c :=
  ⟨ha, rfl, hfull, rfl, dropWhile_reset_ne s.host⟩

theorem decode_of_decodeTableWord {nbits w : Nat} {i : Instr} (h : decodeTableWord nbits w = some i) :
    decode (commandOfBits nbits w) = .ok i := by
  unfold decodeTableWord at h
  split at h <;> cases h
  assumption

/-- Settles O8: the placed command is complete, so the step runs it, and accepting it empties the channel. -/
theorem placedCommandRunsNext : Obligations.PlacedCommandRunsNext := fun _ nbits w i ha hdec =>
  stepRunsTheDecodedCommand _ _ i (offer_canRun ha (commandOfBits_complete nbits w)) (decode_of_decodeTableWord hdec)

/-- Bytes within LEN join the payload of the command on the channel, in order (R60). -/
theorem hostTurn_payload {s : State} {c : Command} {bs : Bytes} {rest : List HostMove} (hhost : s.host = .payload bs :: rest)
    (hcmd : s.cmd = some c) (hfit : c.payload.length + bs.length ≤ c.len.toNat) :
    s.hostTurn = .next { s with cmd := some { c with payload := c.payload ++ bs }, host := rest } := by
  simp only [State.hostTurn, State.receivePayload, hhost, hcmd, if_pos hfit]

/-- Settles O52: an engine held back leaves the turn to the host, and the last byte completes the command. -/
theorem payloadBytesArrive : Obligations.PayloadBytesArrive := by
  intro s c bs rest ha hhost hcmd hheld hfit
  have hheld' : s.rsp ≠ none ∨ s.cmd = none ∨ ∃ d, s.cmd = some d ∧ d.payload.length < d.len.toNat :=
    hheld.imp_right fun hshort => .inr ⟨c, hcmd, hshort⟩
  refine ⟨_, (step_of_heldBack ha hheld').trans (hostTurn_payload hhost hcmd hfit), rfl, fun hlast hrsp hrest => ?_⟩
  have hfull : ({ c with payload := c.payload ++ bs } : Command).complete = true :=
    (Command.complete_iff _).mpr (List.length_append.trans hlast)
  exact ⟨ha, rfl, hfull, hrsp, hrest⟩

end Machine

end Sys2Proof
end

section
/-! PROOFS. ConstantTimeSBox (R80 to R87): the masked equality, what `substitute` computes, what it reads, and its vector forms. -/

namespace Sys2Proof.Machine

/-! ## The masked equality (R82) -/

/-- The 9-bit subtraction of 1 borrows exactly from zero. -/
theorem borrow_eq_decide (d : Byte) : (d.setWidth 9 - 1#9).getLsbD 8 = decide (d = 0#8) := by
  by_cases hd : d = 0#8
  · subst hd
    decide
  · have hpos : d.toNat ≠ 0 := fun h => hd (BitVec.eq_of_toNat_eq h)
    have hlt : (d.setWidth 9 - 1#9).toNat < 2 ^ 8 := by bv_omega
    rw [decide_eq_false hd]
    exact Nat.testBit_lt_two_pow hlt

/-- Settles O23: the difference is zero exactly for equal bytes, and the negated borrow is all ones or all zeros. -/
theorem eqmaskTruthTable : Obligations.EqmaskTruthTable := by
  intro a b
  have hdiff : a ^^^ b = 0#8 ↔ a = b := BitVec.xor_eq_zero_iff
  simp only [eqmask8, borrow_eq_decide, hdiff]
  by_cases h : a = b <;> simp [h]

/-! ## What `substitute` computes (R80, R84) -/

/-- The scan from index `i` on ORs the one entry at `x` into the accumulator, nothing where that entry lies elsewhere (R81). -/
theorem scanTable_val (sp : Space) (x : Byte) (i : Nat) (ts : Bytes) (acc : Byte) (h : i + ts.length ≤ 256) :
    (scanTable sp x i ts acc).val = acc ||| if i ≤ x.toNat then byteAt ts (x.toNat - i) else 0#8 := by
  induction ts generalizing i acc with
  | nil => simp [scanTable, byteAt]
  | cons t ts ih =>
    have hi : i < 256 := by simp at h; omega
    have hindex : BitVec.ofNat 8 i = x ↔ i = x.toNat := by
      rw [← BitVec.toNat_inj, BitVec.toNat_ofNat, Nat.mod_eq_of_lt hi]
    have hmask : t &&& eqmask8 (BitVec.ofNat 8 i) x = if i = x.toNat then t else 0x00#8 := by
      simp only [eqmaskTruthTable _ _, hindex]
      split
      · exact BitVec.and_allOnes
      · exact BitVec.and_zero
    rw [scanTable, Traced.after_val, ih (i + 1) _ (by simp at h; omega), hmask]
    rcases Nat.lt_trichotomy i x.toNat with hlt | heq | hgt
    · have hsub : x.toNat - i = x.toNat - (i + 1) + 1 := by omega
      simp [hlt.le, hlt.ne, Nat.succ_le_of_lt hlt, hsub, byteAt]
    · simp [← heq, byteAt]
    · simp [hgt.not_ge, hgt.ne', show ¬ i + 1 ≤ x.toNat by omega]

/-- A checked record's formulas give the tables (R83, R84). -/
theorem formula_of_algOk {a : Alg} (ha : algOk a = true) {fwd inv : ByteExpr} (hs : a.sboxStrategy = .formula fwd inv)
    (sp : Space) : allBytes.map (fun x => (formulaOf fwd inv sp).eval [x]) = table a sp := by
  simp only [algOk, Bool.and_eq_true] at ha
  obtain ⟨-, hok⟩ := ha
  simp only [strategyOk, hs, Bool.and_eq_true, decide_eq_true_eq] at hok
  obtain ⟨⟨-, hfwd⟩, hinv⟩ := hok
  cases sp with
  | sbox => exact hfwd
  | sboxInv => exact hinv

theorem byteAt_map_allBytes (f : Byte → Byte) (x : Byte) : byteAt (allBytes.map f) x.toNat = f x := by
  have hx := x.isLt
  simp [byteAt, allBytes, hx]

theorem table_length {a : Alg} (ha : algOk a = true) (sp : Space) : (table a sp).length = 256 := by
  obtain ⟨hfwd, hinv, -⟩ := tables_of_algOk ha
  cases sp with
  | sbox => exact hfwd
  | sboxInv => exact hinv

/-- Substitution through a space is its table, under either strategy (R80). -/
theorem substituteVia_val {a : Alg} (ha : algOk a = true) (sp : Space) (x : Byte) :
    (substituteVia a sp x).val = byteAt (table a sp) x.toNat := by
  unfold substituteVia
  split
  · rw [scanTable_val _ _ _ _ _ (by simp [table_length ha])]
    simp
  next fwd inv hs =>
    rw [← formula_of_algOk ha hs sp, byteAt_map_allBytes]

/-- Settles O24: both directions are substitution through a space. -/
theorem substituteIsTheTable : Obligations.SubstituteIsTheTable := fun _ x ha =>
  ⟨substituteVia_val ha.1 .sbox x, substituteVia_val ha.1 .sboxInv x⟩

/-- Settles O26: the tables undo each other, one way by R7 and the other way by finiteness. -/
theorem substituteInverts : Obligations.SubstituteInverts := by
  intro a x ha
  obtain ⟨-, -, htables⟩ := tables_of_algOk ha.1
  have hfwd (y : Byte) : (substitute a y).val = byteAt a.sbox y.toNat := (substituteIsTheTable a y ha).1
  have hinv (y : Byte) : (substituteInv a y).val = byteAt a.sboxInv y.toNat := (substituteIsTheTable a y ha).2
  simp only [hfwd, hinv]
  exact ⟨htables x, sbox_sboxInv ha.1 x⟩

/-! ## What `substitute` reads (R81, R83, R87) -/

/-- The events of a scan see the loop's bounds only: each turn the loop test and one read at the loop counter (R81). -/
theorem scanTable_trace (sp : Space) (x : Byte) (i : Nat) (ts : Bytes) (acc : Byte) :
    (scanTable sp x i ts acc).trace =
      (List.range' i ts.length).flatMap (fun j => [.branch .scanLoop true, .table sp j]) ++ [.branch .scanLoop false] := by
  induction ts generalizing i acc with
  | nil => rfl
  | cons t ts ih => simp [scanTable, ih, List.range'_succ]

theorem scanTable_tableEvents (sp : Space) (x : Byte) (i : Nat) (ts : Bytes) (acc : Byte) :
    (scanTable sp x i ts acc).trace.filter Event.isTable = (List.range' i ts.length).map (Event.table sp) := by
  simp [scanTable_trace, List.filter_flatMap, List.filter_cons, List.map_eq_flatMap]

theorem substituteVia_tableEvents {a : Alg} (ha : algOk a = true) (hs : a.sboxStrategy = .fullScan) (sp : Space) (x : Byte) :
    (substituteVia a sp x).trace.filter Event.isTable = (List.range 256).map (Event.table sp) := by
  simp [substituteVia, hs, scanTable_tableEvents, table_length ha, List.range_eq_range']

theorem substituteVia_trace_formula {a : Alg} (hs : a.sboxStrategy ≠ .fullScan) (sp : Space) (x : Byte) :
    (substituteVia a sp x).trace = [] := by
  unfold substituteVia
  split
  next hscan => exact absurd hscan hs
  next => rfl

/-- Settles O25: the scan reads a whole table at its loop counter, the formula is a circuit. -/
theorem substituteAccessPattern : Obligations.SubstituteAccessPattern := fun _ x ha =>
  ⟨fun hs => ⟨substituteVia_tableEvents ha.1 hs .sbox x, substituteVia_tableEvents ha.1 hs .sboxInv x⟩,
    fun hs => ⟨substituteVia_trace_formula hs .sbox x, substituteVia_trace_formula hs .sboxInv x⟩⟩

/-! ## Vectors, byte by byte (R85, R86) -/

theorem substituteEach_val (f : Byte → Traced Byte) (v : Bytes) :
    (substituteEach f v).val = v.map (fun x => (f x).val) := by
  induction v with
  | nil => rfl
  | cons x xs ih => simp [substituteEach, ih]

theorem substituteEach_tableEvents (f : Byte → Traced Byte) (v : Bytes) :
    (substituteEach f v).trace.filter Event.isTable = v.flatMap (fun x => (f x).trace.filter Event.isTable) := by
  induction v with
  | nil => rfl
  | cons x xs ih => simp [substituteEach, ih]

/-- Settles O27: all three apply one substitution to each byte in turn. -/
theorem subBytesIsBytewise : Obligations.SubBytesIsBytewise := fun _ v =>
  ⟨substituteEach_val _ v, substituteEach_val _ v, substituteEach_tableEvents _ v, substituteEach_tableEvents _ v, rfl⟩

end Sys2Proof.Machine
end

section
/-! PROOFS. Constant time (R89): the events of a computation, and so of a command, see the lengths of vectors only, never their bytes. -/

namespace Sys2Proof

/-! ## What is public: lengths and command words -/

/-- Vectors that differ at most in their bytes. -/
def SameLength (v w : Bytes) : Prop := v.length = w.length

/-- Expansion states that differ at most in their bytes: the public key length selected the same circuits (R105). -/
def KsState.Alike (ks ls : KsState) : Prop := ks.steps = ls.steps ∧ SameLength ks.bytes ls.bytes

/-- A layer's output width is fixed by its input's, whether or not the layer passes the check of widths. -/
theorem Layer.eval_sameLength (l : Layer) {v w : Bytes} (h : SameLength v w) : SameLength (l.eval v) (l.eval w) := by
  cases l with
  | bytes outs => simp [Layer.eval, SameLength]
  | rotl n => simpa [Layer.eval, SameLength] using h
  | rotr n => simpa [Layer.eval, SameLength] using h

theorem evalLayers_sameLength (ls : List Layer) {v w : Bytes} (h : SameLength v w) :
    SameLength (evalLayers ls v) (evalLayers ls w) := by
  induction ls generalizing v w with
  | nil => exact h
  | cons l ls ih => exact ih (Layer.eval_sameLength l h)

theorem Command.len_congr {c d : Command} (hword : d.word = c.word) : d.len = c.len := by
  rw [Command.len, hword, ← Command.len]

/-- Complete commands with the same word have payloads of one length (R60). -/
theorem Command.payload_sameLength {c d : Command} (hword : d.word = c.word) (hc : c.complete = true) (hd : d.complete = true) :
    SameLength c.payload d.payload :=
  (c.complete_iff.mp hc).trans (Command.len_congr hword ▸ (d.complete_iff.mp hd).symm)

/-- The same instruction with another operand; a format N command has none. -/
def Instr.withOperand (q : Bytes) : Instr → Instr
  | .keyload _ => .keyload q
  | .encrypt _ => .encrypt q
  | .decrypt _ => .decrypt q
  | .zeroize => .zeroize
  | .info => .info

/-- Commands with the same word decode to the same instruction, each with its own payload as the operand (R63, R65). -/
theorem decode_withOperand {c d : Command} {i : Instr} (hword : d.word = c.word) (h : decode c = .ok i) :
    decode d = .ok (i.withOperand d.payload) := by
  rw [decode_eq_ok_iff] at h ⊢
  obtain ⟨hrsvd, hop, hcar⟩ := h
  simp only [Command.rsvd, Command.opcode, hword]
  cases i with
  | keyload p | encrypt p | decrypt p => exact ⟨hrsvd, hop, rfl⟩
  | zeroize | info => exact ⟨hrsvd, hop, (Command.len_congr hword).trans hcar⟩

theorem decode_error_of_word_eq {c d : Command} {e : Illegal} (hword : d.word = c.word) (h : decode c = .error e) :
    ∃ e', decode d = .error e' := by
  cases hd : decode d with
  | error e' => exact ⟨e', rfl⟩
  | ok j => cases h.symm.trans (decode_withOperand hword.symm hd)

namespace Machine

/-! ## Computations an observer of the events cannot tell apart -/

/-- The same events, and values related by `R`. -/
def Traced.Alike {α : Type} (R : α → α → Prop) (x y : Traced α) : Prop := x.trace = y.trace ∧ R x.val y.val

section Combinators

variable {α β : Type} {R : α → α → Prop} {Q : β → β → Prop} {x y : Traced α}

theorem Traced.Alike.bind (h : x.Alike R y) {f g : α → Traced β} (hf : ∀ a b, R a b → (f a).Alike Q (g b)) :
    (x.bind f).Alike Q (y.bind g) := by
  obtain ⟨ht, hv⟩ := h
  obtain ⟨ht', hv'⟩ := hf _ _ hv
  exact ⟨congrArg₂ _ ht ht', hv'⟩

theorem Traced.Alike.map (h : x.Alike R y) {f g : α → β} (hf : ∀ a b, R a b → Q (f a) (g b)) :
    (x.map f).Alike Q (y.map g) :=
  ⟨h.1, hf _ _ h.2⟩

theorem Traced.Alike.after (h : x.Alike R y) (es : List Event) : (x.after es).Alike R (y.after es) :=
  ⟨congrArg (es ++ ·) h.1, h.2⟩

theorem Traced.Alike.andThen (h : x.Alike R y) (es : List Event) : (x.andThen es).Alike R (y.andThen es) :=
  ⟨congrArg (· ++ es) h.1, h.2⟩

end Combinators

/-! ## The four components (R87, R105, R130, R146) -/

/-- A substitution produces the same events for every byte (R81, R83, R87). -/
theorem substituteVia_trace_congr (a : Alg) (sp : Space) (x y : Byte) :
    (substituteVia a sp x).trace = (substituteVia a sp y).trace := by
  unfold substituteVia
  split
  · rw [scanTable_trace, scanTable_trace]
  · rfl

theorem substituteEach_alike {f : Byte → Traced Byte} (hf : ∀ x y, (f x).trace = (f y).trace) {v w : Bytes}
    (h : SameLength v w) : (substituteEach f v).Alike SameLength (substituteEach f w) := by
  refine ⟨?_, by simpa [SameLength] using h⟩
  induction v generalizing w with
  | nil =>
    cases w with
    | nil => rfl
    | cons y ys => cases h
  | cons x xs ih =>
    cases w with
    | nil => cases h
    | cons y ys => simp [substituteEach, hf x y, ih (w := ys) (by simpa [SameLength] using h)]

theorem subBytes_alike (a : Alg) {v w : Bytes} (h : SameLength v w) : (subBytes a v).Alike SameLength (subBytes a w) :=
  substituteEach_alike (substituteVia_trace_congr a .sbox) h

theorem subBytesInv_alike (a : Alg) {v w : Bytes} (h : SameLength v w) :
    (subBytesInv a v).Alike SameLength (subBytesInv a w) :=
  substituteEach_alike (substituteVia_trace_congr a .sboxInv) h

theorem evalKsLayer_alike (a : Alg) (l : KsLayer) {v w : Bytes} (h : SameLength v w) :
    (evalKsLayer a l v).Alike SameLength (evalKsLayer a l w) := by
  cases l with
  | net l => exact ⟨rfl, Layer.eval_sameLength l h⟩
  | subst lo n =>
    have hpart : SameLength ((v.drop lo).take n) ((w.drop lo).take n) := by simp_all [SameLength]
    exact (subBytes_alike a hpart).map fun _ _ hsub => by simp_all [SameLength]

theorem evalKsLayers_alike (a : Alg) (ls : List KsLayer) {v w : Bytes} (h : SameLength v w) :
    (evalKsLayers a ls v).Alike SameLength (evalKsLayers a ls w) := by
  induction ls generalizing v w with
  | nil => exact ⟨rfl, h⟩
  | cons l ls ih => exact (evalKsLayer_alike a l h).bind fun _ _ => ih

theorem ksInit_alike (a : Alg) {key key' : Bytes} (h : SameLength key key') :
    (ksInit a key).Alike KsState.Alike (ksInit a key') := by
  unfold ksInit
  rw [show key.length = key'.length from h]
  refine Traced.Alike.bind (R := Eq) ⟨rfl, rfl⟩ fun e _ he => ?_
  subst he
  exact (evalKsLayers_alike a e.init h).map fun _ _ hv => ⟨rfl, hv⟩

theorem ksStep_alike (a : Alg) (i : Nat) {ks ls : KsState} (h : ks.Alike ls) :
    (ksStep a i ks).Alike (fun p q => p.2.Alike q.2) (ksStep a i ls) := by
  obtain ⟨hsteps, hbytes⟩ := h
  unfold ksStep
  rw [hsteps]
  exact (evalKsLayers_alike a _ hbytes).map fun _ _ hv => ⟨rfl, by simp_all [SameLength]⟩

theorem expandLoop_alike (a : Alg) (n i : Nat) {ks ls : KsState} (h : ks.Alike ls) :
    (expandLoop a n i ks).Alike (fun _ _ => True) (expandLoop a n i ls) := by
  induction n generalizing i ks ls with
  | zero => exact ⟨rfl, trivial⟩
  | succ n ih =>
    exact ((ksStep_alike a i h).bind fun _ _ hnext => (ih (i + 1) hnext).map fun _ _ _ => trivial).after _

/-- The expansion's events see the key's length only (R105, R146). -/
theorem expand_trace_congr (a : Alg) {key key' : Bytes} (h : SameLength key key') :
    (expand a key).trace = (expand a key').trace :=
  ((ksInit_alike a h).bind (Q := fun _ _ => True) fun _ _ => expandLoop_alike a _ 0).1

/-- A stage loop sees lengths only when each stage does (R124, R125). -/
theorem runStages_alike {f g : Bytes → Stage → Traced Bytes}
    (hf : ∀ x y s, SameLength x y → (f x s).Alike SameLength (g y s)) (ss : List Stage) {x y : Bytes} (hx : SameLength x y) :
    (runStages f ss x).Alike SameLength (runStages g ss y) := by
  induction ss generalizing x y with
  | nil => exact ⟨rfl, hx⟩
  | cons s ss ih => exact ((hf x y s hx).bind fun _ _ => ih).after _

section Rounds

variable (a : Alg) {k k' x y : Bytes} (last : Bool) (hk : SameLength k k')
include hk

theorem stageForward_alike (s : Stage) (hx : SameLength x y) :
    (stageForward a k last x s).Alike SameLength (stageForward a k' last y s) := by
  cases s with
  | K => exact ⟨rfl, evalLayers_sameLength _ (by simp_all [SameLength])⟩
  | S => exact ((subBytes_alike a hx).after _).andThen _
  | D => exact ⟨rfl, by simp only [stageForward]; split; exacts [hx, evalLayers_sameLength _ hx]⟩

theorem stageInverse_alike (s : Stage) (hx : SameLength x y) :
    (stageInverse a k last x s).Alike SameLength (stageInverse a k' last y s) := by
  cases s with
  | K => exact ⟨rfl, evalLayers_sameLength _ (by simp_all [SameLength])⟩
  | S => exact ((subBytesInv_alike a hx).after _).andThen _
  | D => exact ⟨rfl, by simp only [stageInverse]; split; exacts [hx, evalLayers_sameLength _ hx]⟩

theorem forward_alike (hx : SameLength x y) : (forward a x k last).Alike SameLength (forward a y k' last) :=
  runStages_alike (fun _ _ s => stageForward_alike a last hk s) _ hx

theorem inverse_alike (hx : SameLength x y) : (inverse a x k last).Alike SameLength (inverse a y k' last) :=
  runStages_alike (fun _ _ s => stageInverse_alike a last hk s) _ hx

end Rounds

/-- The rounds' events see the lengths of the block and of the round keys only (R144, R146). -/
theorem encryptLoop_alike (a : Alg) {rk rk' : List Bytes} (hrk : ∀ i, SameLength (roundKey rk i) (roundKey rk' i)) (n r : Nat)
    {x y : Bytes} (hx : SameLength x y) : (encryptLoop a rk n r x).Alike SameLength (encryptLoop a rk' n r y) := by
  induction n generalizing r x y with
  | zero => exact ⟨rfl, hx⟩
  | succ n ih => exact ((forward_alike a _ (hrk r) hx).bind fun _ _ => ih (r + 1)).after _

/-- As `encryptLoop_alike`, for the rounds downwards (R145, R146). -/
theorem decryptLoop_alike (a : Alg) {rk rk' : List Bytes} (hrk : ∀ i, SameLength (roundKey rk i) (roundKey rk' i)) (n r : Nat)
    {x y : Bytes} (hx : SameLength x y) : (decryptLoop a rk n r x).Alike SameLength (decryptLoop a rk' n r y) := by
  induction n generalizing r x y with
  | zero => exact ⟨rfl, hx⟩
  | succ n ih => exact ((inverse_alike a _ (hrk r) hx).bind fun _ _ => ih (r - 1)).after _

/-- Two files of the same shape have round keys of the same lengths, a register beyond the file being empty in both (R22). -/
theorem roundKey_sameLength {s t : State} (halg : t.alg = s.alg) (hs : s.RkShape) (ht : t.RkShape) (i : Nat) :
    SameLength (roundKey s.rk i) (roundKey t.rk i) := by
  obtain ⟨hscount, hswidth⟩ := hs
  obtain ⟨htcount, htwidth⟩ := ht
  rw [halg] at htcount htwidth
  by_cases hi : i < s.alg.roundCount
  · exact (roundKey_length hscount hswidth hi).trans (roundKey_length htcount htwidth hi).symm
  · simp [SameLength, roundKey, hscount, htcount, not_lt.mp hi]

/-! ## The commands -/

/-- The trace of a block command: its two checks, and the rounds where both pass (R142, R143). -/
theorem blockCommand_trace (s : State) (b : Bytes) (r : Nat) (f : Nat → Bytes → Traced Bytes) :
    (s.blockCommand b r f).trace =
      if b.length ≠ s.alg.blockSize then [.branch .blockSize true]
      else if s.stateFlag = .uninit then [.branch .blockSize false, .branch .engineState true]
      else [.branch .blockSize false, .branch .engineState false] ++ (f r b).trace := by
  by_cases hb : b.length = s.alg.blockSize
  · cases hs : s.stateFlag with
    | uninit => simp [blockCommand_uninit s b r f hb hs, hb]
    | ready => simp [blockCommand_ready s b r f hb hs, hb]
  · simp [blockCommand_wrongSize s b r f hb, hb]

/-- The trace of KEYLOAD: its two checks, and the expansion and the register writes where both pass (R141). -/
theorem execKeyload_trace (key : Bytes) (s : State) :
    ∃ t, execKeyload key s = .next t ∧ t.trace =
      if validKeySize s.alg key.length = false then [.branch .keySize true]
      else if s.stateFlag = .ready then [.branch .keySize false, .branch .engineState true]
      else [.branch .keySize false, .branch .engineState false] ++ (expand s.alg key).trace ++
        writeEvents 0 s.alg.roundCount := by
  by_cases hsize : validKeySize s.alg key.length = false
  · exact ⟨_, if_pos hsize, by simp [hsize, State.acceptsKey]⟩
  · by_cases hready : s.stateFlag = .ready
    · exact ⟨_, (if_neg hsize).trans (if_pos hready), by simp [hsize, hready, State.acceptsKey]⟩
    · exact ⟨_, (if_neg hsize).trans (if_neg hready),
        by simp [hsize, hready, State.acceptsKey, State.loadKey, writeKeysFrom_eq]⟩

/-- An instruction's trace sees its operand's length only, and nothing of `RK` but its shape (R89). -/
theorem exec_trace_congr {s t : State} (halg : t.alg = s.alg) (hflag : t.stateFlag = s.stateFlag) (hs : s.RkShape)
    (ht : t.RkShape) {i : Instr} {p q : Bytes} (hlen : SameLength p q) :
    ∃ s' t', exec (i.withOperand p) s = .next s' ∧ exec (i.withOperand q) t = .next t' ∧ t'.trace = s'.trace := by
  have hlen' : p.length = q.length := hlen
  have hrk := roundKey_sameLength halg hs ht
  cases i with
  | keyload _ =>
    obtain ⟨s', hs', htrace⟩ := execKeyload_trace p s
    obtain ⟨t', ht', htrace'⟩ := execKeyload_trace q t
    refine ⟨s', t', hs', ht', ?_⟩
    rw [htrace, htrace', halg, hflag, hlen', expand_trace_congr s.alg hlen]
  | encrypt _ =>
    refine ⟨_, _, rfl, rfl, ?_⟩
    rw [blockCommand_trace, blockCommand_trace, halg, hflag, hlen', (encryptLoop_alike s.alg hrk _ _ hlen).1]
  | decrypt _ =>
    refine ⟨_, _, rfl, rfl, ?_⟩
    rw [blockCommand_trace, blockCommand_trace, halg, hflag, hlen', (decryptLoop_alike s.alg hrk _ _ hlen).1]
  | zeroize => exact ⟨_, _, rfl, rfl, by simp [writeKeysFrom_eq, halg]⟩
  | info => exact ⟨_, _, rfl, rfl, rfl⟩

/-- Settles O42: one command word means one instruction, or none, with operands of one length; the latency sees public values only. -/
theorem constantTime : Obligations.ConstantTime := by
  intro s t c d hc hd halg hflag hword hs ht
  have ⟨_, _, hfullc, _⟩ := hc
  have ⟨_, _, hfulld, _⟩ := hd
  have hlat : t.latency d = s.latency c := by
    simp [State.latency, Command.opcode, Command.len, halg, hflag, hword]
  rw [step_of_canRun hc, step_of_canRun hd]
  cases hdec : decode c with
  | error e =>
    obtain ⟨e', hdec'⟩ := decode_error_of_word_eq hword hdec
    exact ⟨_, _, runCommand_error hdec, runCommand_error hdec', rfl, hlat⟩
  | ok i =>
    obtain ⟨s', t', hs', ht', htrace⟩ := exec_trace_congr (s := s.accept) (t := t.accept) (i := i) halg hflag hs ht
      (Command.payload_sameLength hword hfullc hfulld)
    exact ⟨s', t', (runCommand_ok (decode_withOperand rfl hdec)).trans hs',
      (runCommand_ok (decode_withOperand hword hdec)).trans ht', htrace, hlat⟩

end Machine

end Sys2Proof
end

section
/-! PROOFS. KeySchedule (R100 to R103): the expansion states from KS_INIT on, and the round key each of the `N` iterations gives. -/

namespace Sys2Proof.Machine

/-- Settles O28: `derive` answers `expand`'s keys exactly for the valid lengths. -/
theorem deriveContract : Obligations.DeriveContract := by
  intro a key ha
  rw [derive_val]
  by_cases hk : key.length ∈ a.keySizes
  · rw [if_pos hk]
    refine ⟨by simp [hk], fun keys hkeys => ?_⟩
    obtain rfl := Option.some.inj hkeys
    exact ⟨expand_count a key, expand_lengths ha hk⟩
  · simp [hk]

/-- The expansion state before iteration `i` (R102): KS_INIT's, then what each iteration leaves. -/
def expansionState (a : Alg) (key : Bytes) : Nat → KsState
  | 0 => (ksInit a key).val
  | i + 1 => (ksStep a i (expansionState a key i)).val.2

/-- The loop entered at iteration `i` gives the round keys of the iterations `i`, `i + 1`, …, in that order. -/
theorem expandLoop_keys (a : Alg) (key : Bytes) (n i : Nat) :
    (expandLoop a n i (expansionState a key i)).val.1 =
      (List.range' i n).map fun j => (ksStep a j (expansionState a key j)).val.1 := by
  induction n generalizing i with
  | zero => rfl
  | succ n ih =>
    rw [List.range'_succ, List.map_cons, ← ih (i + 1)]
    rfl

theorem expand_keys (a : Alg) (key : Bytes) :
    (expand a key).val.1 =
      (List.range a.roundCount).map fun i => (ksStep a i (expansionState a key i)).val.1 := by
  rw [List.range_eq_range', ← expandLoop_keys]
  rfl

/-- Settles O29: the states are `expansionState`, and round key `i` is the one iteration `i` gives. -/
theorem deriveIterates : Obligations.DeriveIterates := by
  intro a key
  rw [derive_val]
  refine ⟨fun hk => if_neg hk, fun hk =>
    ⟨(expand a key).val.1, expansionState a key, if_pos hk, expand_count a key, rfl, fun i hi => ⟨?_, rfl⟩⟩⟩
  simp [expand_keys, hi]

end Sys2Proof.Machine
end

section
/-! PROOFS. RoundFunction (R124 to R128): a round as a fold over its stages, each stage undone by its counterpart, and so the round. -/

namespace Sys2Proof.Machine

/-! ## The stage loop (R124, R125) -/

theorem runStages_val (f : Bytes → Stage → Traced Bytes) (ss : List Stage) (x : Bytes) :
    (runStages f ss x).val = ss.foldl (fun y s => (f y s).val) x := by
  induction ss generalizing x with
  | nil => rfl
  | cons s ss ih => exact ih (f x s).val

/-- Where `g` undoes each stage of `f`, the loop of `g` over the reversed stages undoes the loop of `f`: the stage applied last is
undone first. -/
theorem runStages_reverse_undoes {n : Nat} {f g : Bytes → Stage → Traced Bytes}
    (hf : ∀ x s, x.length = n → (f x s).val.length = n) (hgf : ∀ x s, x.length = n → (g (f x s).val s).val = x)
    (ss : List Stage) {x : Bytes} (hx : x.length = n) :
    (runStages g ss.reverse (runStages f ss x).val).val = x := by
  induction ss generalizing x with
  | nil => rfl
  | cons s ss ih =>
    have hrest := ih (hf x s hx)
    simp only [runStages_val] at hrest
    simp [runStages_val, hrest, hgf x s hx]

/-! ## The stages -/

theorem omitsDiffusion_iff (a : Alg) (last : Bool) :
    omitsDiffusion a last = true ↔ last = true ∧ a.lastRoundDiffuses = false := by
  simp [omitsDiffusion]

theorem substituteEach_undoes {f g : Byte → Traced Byte} (hgf : ∀ x, (g (f x).val).val = x) (v : Bytes) :
    (substituteEach g (substituteEach f v).val).val = v := by
  simp [substituteEach_val, Function.comp_def, hgf]

theorem subBytesInv_subBytes {a : Alg} (ha : Conforming a) (v : Bytes) : (subBytesInv a (subBytes a v).val).val = v :=
  substituteEach_undoes (fun x => (substituteInverts a x ha).1) v

theorem subBytes_subBytesInv {a : Alg} (ha : Conforming a) (v : Bytes) : (subBytes a (subBytesInv a v).val).val = v :=
  substituteEach_undoes (fun x => (substituteInverts a x ha).2) v

/-- K and D by R7, S by R84; where the last round omits D, neither pass changes the block there (R126). -/
theorem stageInverse_stageForward {a : Alg} (ha : Conforming a) {x k : Bytes} (hx : x.length = a.blockSize)
    (hk : k.length = a.rkBytes) (last : Bool) (s : Stage) :
    (stageInverse a k last (stageForward a k last x s).val s).val = x := by
  have ⟨_, hkeymix, hdiffuse⟩ := ha
  cases s with
  | K => exact hkeymix x k hx hk
  | S => exact subBytesInv_subBytes ha x
  | D => cases h : omitsDiffusion a last <;> simp [stageForward, stageInverse, h, hdiffuse x hx]

/-- As `stageInverse_stageForward`, by the other direction of R7. -/
theorem stageForward_stageInverse {a : Alg} (ha : Conforming a) {x k : Bytes} (hx : x.length = a.blockSize)
    (hk : k.length = a.rkBytes) (last : Bool) (s : Stage) :
    (stageForward a k last (stageInverse a k last x s).val s).val = x := by
  cases s with
  | K => exact keymix_keymixInv ha hx hk
  | S => exact subBytes_subBytesInv ha x
  | D => cases h : omitsDiffusion a last <;> simp [stageForward, stageInverse, h, diffuse_diffuseInv ha hx]

/-! ## The round -/

/-- Settles O32: each stage is undone by its counterpart, in the reverse order. -/
theorem roundInverseLaw : Obligations.RoundInverseLaw := by
  intro a b k last ha hb hk
  have hfwd (x : Bytes) (s : Stage) (hx : x.length = a.blockSize) := stageForward_length ha.1 hx hk last s
  have hinv (x : Bytes) (s : Stage) (hx : x.length = a.blockSize) := stageInverse_length ha.1 hx hk last s
  have hcancel := runStages_reverse_undoes hinv (fun _ s hx => stageForward_stageInverse ha hx hk last s)
    (stages a.stageOrder).reverse hb
  rw [List.reverse_reverse] at hcancel
  exact ⟨runStages_reverse_undoes hfwd (fun _ s hx => stageInverse_stageForward ha hx hk last s) _ hb, hcancel⟩

/-- Settles O33: every stage keeps the block's size. -/
theorem roundSizeLaw : Obligations.RoundSizeLaw := fun _ b _ last ha hb hk =>
  ⟨runStages_length _ (fun _ s hx => stageForward_length ha hx hk last s) _ b hb,
    runStages_length _ (fun _ s hx => stageInverse_length ha hx hk last s) _ b hb⟩

/-- Settles O30: the loops are folds, and each turn is the stage's operation. -/
theorem roundComposition : Obligations.RoundComposition := by
  intro a b k last fwd inv
  have hfwd : (fun x s => (stageForward a k last x s).val) = fwd := by
    funext x s
    cases s with
    | K | S => rfl
    | D => simp only [stageForward, fwd, omitsDiffusion_iff]
  have hinv : (fun x s => (stageInverse a k last x s).val) = inv := by
    funext x s
    cases s with
    | K | S => rfl
    | D => simp only [stageInverse, inv, omitsDiffusion_iff]
  rw [← hfwd, ← hinv]
  exact ⟨runStages_val _ _ b, runStages_val _ _ b⟩

end Sys2Proof.Machine
end

section
/-! PROOFS. CipherEngine (R141 to R145, R150 to R154): the rounds as iterations that undo each other, the next state of each command, and
what a block command leaves unchanged and depends on. -/

namespace Sys2Proof.Machine

/-! ## The round loops, seen from their last round (R144, R145) -/

/-- One more round of `encrypt_rounds` is one more `forward` on its result. -/
theorem encryptLoop_val_succ (a : Alg) (rk : List Bytes) (n r : Nat) (x : Bytes) :
    (encryptLoop a rk (n + 1) r x).val =
      (forward a (encryptLoop a rk n r x).val (roundKey rk (r + n)) (isLastRound a (r + n))).val := by
  induction n generalizing r x with
  | zero => rfl
  | succ n ih =>
    have hround : r + 1 + n = r + (n + 1) := by omega
    exact hround ▸ ih (r + 1) (forward a x (roundKey rk r) (isLastRound a r)).val

/-- One more round of `decrypt_rounds` is one more `inverse` on its result. -/
theorem decryptLoop_val_succ (a : Alg) (rk : List Bytes) (n r : Nat) (x : Bytes) :
    (decryptLoop a rk (n + 1) r x).val =
      (inverse a (decryptLoop a rk n r x).val (roundKey rk (r - n)) (isLastRound a (r - n))).val := by
  induction n generalizing r x with
  | zero => rfl
  | succ n ih =>
    have hround : r - 1 - n = r - (n + 1) := by omega
    exact hround ▸ ih (r - 1) (inverse a x (roundKey rk r) (isLastRound a r)).val

/-- The last of `N` rounds is round `N-1` (R126). -/
theorem isLastRound_eq {a : Alg} {r : Nat} (hr : r < a.roundCount) : isLastRound a r = decide (r = a.roundCount - 1) :=
  decide_eq_decide.mpr (by omega)

/-- Settles O34: block `r` is what the loop has after `r` rounds. -/
theorem encryptRoundsIterate : Obligations.EncryptRoundsIterate := by
  intro a rk b
  refine ⟨fun r => (encryptLoop a rk r 0 b).val, rfl, fun r hr => ?_, rfl, ?_⟩
  · beta_reduce
    rw [encryptLoop_val_succ, Nat.zero_add, isLastRound_eq hr]
  · rw [encryptRounds, encryptLoop_rkEvents, List.range_eq_range']

/-- Settles O35: block `r` is what the loop has after the rounds `N-1` down to `r`. -/
theorem decryptRoundsIterate : Obligations.DecryptRoundsIterate := by
  intro a rk c
  refine ⟨fun r => (decryptLoop a rk (a.roundCount - r) (a.roundCount - 1) c).val, ?_, fun r hr => ?_, rfl,
    decryptLoop_rkEvents a rk a.roundCount c⟩
  · simp [decryptLoop]
  · have hcount : a.roundCount - r = a.roundCount - (r + 1) + 1 := by omega
    have hround : a.roundCount - 1 - (a.roundCount - (r + 1)) = r := by omega
    beta_reduce
    rw [hcount, decryptLoop_val_succ, hround, isLastRound_eq hr]

/-! ## The rounds undo each other (R150) -/

section RoundTrip

variable {a : Alg} {rk : List Bytes} (ha : Conforming a) (hcount : rk.length = a.roundCount)
  (hwidth : ∀ k ∈ rk, k.length = a.rkBytes)
include ha hcount hwidth

/-- The last `forward` is undone by the first `inverse`, the rounds before it by the rounds after that. -/
theorem decryptLoop_encryptLoop {n : Nat} (hn : n ≤ a.roundCount) {b : Bytes} (hb : b.length = a.blockSize) :
    (decryptLoop a rk n (n - 1) (encryptLoop a rk n 0 b).val).val = b := by
  induction n with
  | zero => rfl
  | succ n ih =>
    have hx : (encryptLoop a rk n 0 b).val.length = a.blockSize :=
      encryptLoop_length ha.1 hcount hwidth n 0 b (by omega) hb
    obtain ⟨hround, -⟩ := roundInverseLaw a _ _ (isLastRound a n) ha hx (roundKey_length hcount hwidth hn)
    rw [encryptLoop_val_succ, Nat.zero_add, decryptLoop, Traced.after_val, Traced.bind_val, Nat.add_sub_cancel, hround]
    exact ih (by omega)

/-- The last `inverse` is undone by the first `forward`, the rounds before it by the rounds after that. -/
theorem encryptLoop_decryptLoop {n : Nat} (hn : n ≤ a.roundCount) {c : Bytes} (hc : c.length = a.blockSize) :
    (encryptLoop a rk n 0 (decryptLoop a rk n (n - 1) c).val).val = c := by
  induction n generalizing c with
  | zero => rfl
  | succ n ih =>
    have hkey : (roundKey rk n).length = a.rkBytes := roundKey_length hcount hwidth hn
    obtain ⟨-, hround⟩ := roundInverseLaw a c _ (isLastRound a n) ha hc hkey
    obtain ⟨-, hx⟩ := roundSizeLaw a c _ (isLastRound a n) ha.1 hc hkey
    rw [encryptLoop_val_succ, Nat.zero_add, decryptLoop, Traced.after_val, Traced.bind_val, Nat.add_sub_cancel,
      ih (by omega) hx, hround]

end RoundTrip

/-! ## The size of blocks (R6, R142, R143) -/

theorem blockSize_lt {a : Alg} (ha : algOk a = true) : a.blockSize < 65536 := by
  simp only [algOk, sizeOk, Bool.and_eq_true, decide_eq_true_eq] at ha
  omega

section Blocks

variable {s : State} (ha : algOk s.alg = true) (hshape : s.RkShape) {b : Bytes} (hb : b.length = s.alg.blockSize)
include ha hshape hb

theorem encryptRounds_length : (encryptRounds s.alg s.rk b).val.length = s.alg.blockSize :=
  have ⟨hcount, hwidth⟩ := hshape
  encryptLoop_length ha hcount hwidth _ 0 b (by omega) hb

theorem decryptRounds_length : (decryptRounds s.alg s.rk b).val.length = s.alg.blockSize :=
  have ⟨hcount, hwidth⟩ := hshape
  decryptLoop_length ha hcount hwidth _ b le_rfl hb

end Blocks

/-! ## The next state of each command (R141 to R143) -/

/-- Between commands the transients are zero, so a response changes the response slot alone. -/
theorem respond_of_transientsClear {s : State} (hclear : s.TransientsClear) (st : Status) (q : Bytes) :
    s.respond st q = { s with rsp := some ⟨responseWord st s.stateFlag q.length, q⟩ } := by
  rw [State.respond, clearTransients_eq hclear]

/-- The word of an OK response in READY (R62). -/
theorem responseWord_ok_ready {n : Nat} (h : n < 65536) :
    responseWord .ok .ready n = BitVec.ofNat 32 (n * 65536 + 0x100) := by
  have hcode : Status.ok.code.toNat = 0 := rfl
  apply BitVec.eq_of_toNat_eq
  rw [responseWord_toNat, responseLen_toNat h, hcode, BitVec.toNat_ofNat]
  simp only [StateFlag.readyBit, if_true]
  omega

/-- An OK response in READY, field by field (R26, R62). -/
theorem respond_ok_ready {s : State} (hready : s.stateFlag = .ready) {q : Bytes} (hq : q.length < 65536) :
    s.respond .ok q = { s with
      kb := zeros (keyBufferBytes s.alg)
      ks := zeros (expansionBufferBytes s.alg)
      wb := zeros s.alg.blockSize
      r := 0
      rsp := some ⟨BitVec.ofNat 32 (q.length * 65536 + 0x100), q⟩ } := by
  have hword : responseWord .ok s.stateFlag q.length = BitVec.ofNat 32 (q.length * 65536 + 0x100) :=
    hready ▸ responseWord_ok_ready hq
  rw [State.respond, hword]
  rfl

section Keyload

variable {s : State} {key : Bytes}

/-- KEYLOAD's three cases (R141): the wrong size, a key already loaded, the expansion. -/
theorem execKeyload_wrongSize (hkey : key.length ∉ s.alg.keySizes) :
    execKeyload key s = .next ({ s with trace := [.branch .keySize true] }.raise .keySize) := by
  simp [execKeyload, State.acceptsKey, validKeySize, hkey, State.start, State.decision, State.emit]

theorem execKeyload_ready (hkey : key.length ∈ s.alg.keySizes) (hready : s.stateFlag = .ready) :
    execKeyload key s =
      .next ({ s with trace := [.branch .keySize false, .branch .engineState true] }.raise .engineState) := by
  simp [execKeyload, State.acceptsKey, validKeySize, hkey, hready, State.start, State.decision, State.emit]

theorem execKeyload_uninit (hkey : key.length ∈ s.alg.keySizes) (huninit : s.stateFlag = .uninit)
    (hcount : s.rk.length = s.alg.roundCount) :
    execKeyload key s = .next ({ s with
      stateFlag := .ready
      rk := (expand s.alg key).val.1
      trace := [Event.branch .keySize false, Event.branch .engineState false] ++ (expand s.alg key).trace ++
        writeEvents 0 s.alg.roundCount }.respond .ok []) := by
  simp [execKeyload, State.acceptsKey, validKeySize, hkey, huninit, loadKey_eq, hcount, State.start, State.decision,
    State.emit, State.respond, State.clearTransients]

end Keyload

/-- Settles O16: the cases of KEYLOAD; only the register writes of a success touch `RK`. -/
theorem keyloadMeaning : Obligations.KeyloadMeaning := by
  refine fun s key => ⟨fun hkey => ⟨_, rfl, rfl, execKeyload_wrongSize hkey⟩,
    fun hkey hready => ⟨_, rfl, rfl, execKeyload_ready hkey hready⟩, fun hkey huninit hcount => ?_⟩
  have hderive := (derive_val s.alg key).trans (if_pos hkey)
  have hexec := execKeyload_uninit hkey huninit hcount
  rw [respond_ok_ready rfl (by decide)] at hexec
  refine ⟨_, _, hderive, ?_, hexec⟩
  simp [writeEvents_rkEvents, List.range_eq_range']

section BlockCommands

variable {s : State} {b : Bytes} (hb : b.length = s.alg.blockSize) (hready : s.stateFlag = .ready)
include hb hready

/-- A successful ENCRYPT answers `encrypt_rounds` and reads each register once, upwards (R142). -/
theorem exec_encrypt_ready : ∃ tr, tr.filter Event.isRk = (List.range s.alg.roundCount).map Event.rkRead ∧
    exec (.encrypt b) s = .next ({ s with trace := tr }.respond .ok (encryptRounds s.alg s.rk b).val) := by
  refine ⟨_, ?_, congrArg Host.Outcome.next (blockCommand_ready s b 0 _ hb hready)⟩
  rw [List.filter_append, encryptLoop_rkEvents, List.range_eq_range']
  rfl

/-- A successful DECRYPT answers `decrypt_rounds` and reads each register once, downwards (R143). -/
theorem exec_decrypt_ready : ∃ tr, tr.filter Event.isRk = ((List.range s.alg.roundCount).map Event.rkRead).reverse ∧
    exec (.decrypt b) s = .next ({ s with trace := tr }.respond .ok (decryptRounds s.alg s.rk b).val) := by
  refine ⟨_, ?_, congrArg Host.Outcome.next (blockCommand_ready s b (s.alg.roundCount - 1) _ hb hready)⟩
  rw [List.filter_append, decryptLoop_rkEvents]
  rfl

end BlockCommands

/-- Settles O17: the cases of a block command, with `encrypt_rounds`. -/
theorem encryptMeaning : Obligations.EncryptMeaning := by
  refine fun s b ha hshape => ⟨fun hb => ⟨_, rfl, rfl, congrArg Host.Outcome.next (blockCommand_wrongSize s b _ _ hb)⟩,
    fun hb huninit => ⟨_, rfl, rfl, congrArg Host.Outcome.next (blockCommand_uninit s b _ _ hb huninit)⟩,
    fun hb hready => ?_⟩
  obtain ⟨tr, hreads, hexec⟩ := exec_encrypt_ready hb hready
  have hq := encryptRounds_length ha hshape hb
  refine ⟨_, tr, rfl, hq, hreads, hexec.trans ?_⟩
  rw [respond_ok_ready (s := { s with trace := tr }) hready (hq ▸ blockSize_lt ha), hq]

/-- Settles O18: the cases of a block command, with `decrypt_rounds`. -/
theorem decryptMeaning : Obligations.DecryptMeaning := by
  refine fun s b ha hshape => ⟨fun hb => ⟨_, rfl, rfl, congrArg Host.Outcome.next (blockCommand_wrongSize s b _ _ hb)⟩,
    fun hb huninit => ⟨_, rfl, rfl, congrArg Host.Outcome.next (blockCommand_uninit s b _ _ hb huninit)⟩,
    fun hb hready => ?_⟩
  obtain ⟨tr, hreads, hexec⟩ := exec_decrypt_ready hb hready
  have hq := decryptRounds_length ha hshape hb
  refine ⟨_, tr, rfl, hq, hreads, hexec.trans ?_⟩
  rw [respond_ok_ready (s := { s with trace := tr }) hready (hq ▸ blockSize_lt ha), hq]

/-! ## Laws of the block commands (R150 to R154) -/

/-- Settles O38: the answer is a block, the first command keeps READY, the constants and `RK`, and the rounds undo each other. -/
theorem encryptDecryptRoundTrip : Obligations.EncryptDecryptRoundTrip := by
  intro s b ha hshape hready hb
  have ⟨hcount, hwidth⟩ := hshape
  constructor
  · obtain ⟨tr, -, ht⟩ := exec_encrypt_ready hb hready
    obtain ⟨tr', -, hu⟩ := exec_decrypt_ready
      (s := { s with trace := tr }.respond .ok _) (encryptRounds_length ha.1 hshape hb) hready
    exact ⟨_, _, _, _, ht, rfl, hu, rfl, responseWord_status .., decryptLoop_encryptLoop ha hcount hwidth le_rfl hb⟩
  · obtain ⟨tr, -, ht⟩ := exec_decrypt_ready hb hready
    obtain ⟨tr', -, hu⟩ := exec_encrypt_ready
      (s := { s with trace := tr }.respond .ok _) (decryptRounds_length ha.1 hshape hb) hready
    exact ⟨_, _, _, _, ht, rfl, hu, rfl, responseWord_status .., encryptLoop_decryptLoop ha hcount hwidth le_rfl hb⟩

/-- A block command produces its trace and its response, nothing else (R142, R143). -/
theorem blockCommand_frame (s : State) (b : Bytes) (r : Nat) (f : Nat → Bytes → Traced Bytes) :
    ∃ tr st q, s.blockCommand b r f = { s with trace := tr }.respond st q := by
  by_cases hb : b.length = s.alg.blockSize
  · have hflag : s.stateFlag = .uninit ∨ s.stateFlag = .ready := by cases s.stateFlag <;> simp
    rcases hflag with hs | hs
    · exact ⟨_, _, _, blockCommand_uninit s b r f hb hs⟩
    · exact ⟨_, _, _, blockCommand_ready s b r f hb hs⟩
  · exact ⟨_, _, _, blockCommand_wrongSize s b r f hb⟩

/-- Settles O39: with the transients clear, the response too changes nothing but its slot. -/
theorem blockCommandsAreStateless : Obligations.BlockCommandsAreStateless := by
  intro s t i b hclear hi ht
  obtain ⟨r, f, hexec⟩ := exec_eq_blockCommand hi s.alg s.rk
  cases (hexec s rfl rfl).symm.trans ht
  obtain ⟨tr, st, q, hframe⟩ := blockCommand_frame s b r f
  have hclear' : ({ s with trace := tr } : State).TransientsClear := hclear
  rw [hframe, respond_of_transientsClear hclear']

/-- Settles O40: the first round, the rounds and the two checks are fixed by the constants, `STATE` and `RK`. -/
theorem blockCommandsAreDeterministic : Obligations.BlockCommandsAreDeterministic :=
  fun _ _ _ _ _ _ => exec_block_rsp_congr

end Sys2Proof.Machine
end

section
/-! PROOFS. The system commands (R170, R175, R176): what ZEROIZE and INFO answer, and the layout of the INFO record as consecutive
16-bit fields. -/

namespace Sys2Proof.Machine

/-! ## ZEROIZE and INFO (R170, R175) -/

/-- ZEROIZE of a whole register file (R170). -/
theorem execZeroize_eq {s : State} (hcount : s.rk.length = s.alg.roundCount) :
    execZeroize s = .next ({ s with
      stateFlag := .uninit
      rk := zeroKeys s.alg
      trace := writeEvents 0 s.alg.roundCount }.respond .ok []) := by
  have hzero : (zeroKeys s.alg).length = s.alg.roundCount := (zeroKeys_shape s.alg).1
  have hrk : overwrite 0 (zeroKeys s.alg) s.rk = zeroKeys s.alg := overwrite_all _ _ (hcount.trans hzero.symm)
  simp [execZeroize, writeKeysFrom_eq, hzero, hrk, State.start]

/-- The word of an empty OK response in UNINIT (R62). -/
theorem responseWord_ok_uninit_zero : responseWord .ok .uninit 0 = 0x00000000#32 := by decide

/-- Settles O19: the write loop replaces the whole file, and the response clears what is left. -/
theorem zeroizeMeaning : Obligations.ZeroizeMeaning := by
  intro s hcount
  have hexec : exec .zeroize s = _ := execZeroize_eq hcount
  rw [State.respond, List.length_nil, responseWord_ok_uninit_zero] at hexec
  refine ⟨_, ?_, writeEvents_tableEvents 0 s.alg.roundCount, hexec⟩
  rw [writeEvents_rkEvents, List.range_eq_range']

/-- Settles O20: INFO is a response from the started command, whose trace is empty. -/
theorem infoMeaning : Obligations.InfoMeaning := fun _ => rfl

/-! ## The INFO record (R176) -/

/-- The fields of the INFO record, in order (R176). -/
def infoFields (a : Alg) : List Nat := a.blockSize :: a.roundCount :: a.rkBytes :: a.keySizes.length :: a.keySizes

theorem infoRecord_eq_flatMap (a : Alg) : infoRecord a = (infoFields a).flatMap le16 := by
  simp [infoRecord, infoFields]

theorem flatMap_le16_length (ns : List Nat) : (ns.flatMap le16).length = 2 * ns.length := by
  induction ns with
  | nil => rfl
  | cons n ns ih => simp [le16, ih]; omega

theorem le16_toNat {n : Nat} (h : n < 65536) : (BitVec.ofNat 8 n).toNat + 256 * (BitVec.ofNat 8 (n / 256)).toNat = n := by
  rw [BitVec.toNat_ofNat, BitVec.toNat_ofNat]
  omega

/-- Field `j` of consecutive 16-bit fields stands at bytes `2j` and `2j + 1`, low byte first. -/
theorem flatMap_le16_field {ns : List Nat} (hns : ∀ n ∈ ns, n < 65536) {j : Nat} (hj : j < ns.length) :
    (byteAt (ns.flatMap le16) (2 * j)).toNat + 256 * (byteAt (ns.flatMap le16) (2 * j + 1)).toNat = ns[j] := by
  induction ns generalizing j with
  | nil => cases hj
  | cons n ns ih =>
    cases j with
    | zero => exact le16_toNat (hns n List.mem_cons_self)
    | succ j => exact ih (fun m hm => hns m (List.mem_cons_of_mem n hm)) (Nat.lt_of_succ_lt_succ hj)

/-! ## The sizes of a checked record (R6) -/

theorem ascending_iff_isChain (ns : List Nat) : ascending ns = true ↔ ns.IsChain (· < ·) := by
  induction ns with
  | nil => simp [ascending]
  | cons n ns ih => cases ns with
    | nil => simp [ascending]
    | cons m ns => simp [ascending, ih]

/-- R6(b), (c), (d): the sizes of a checked record that its INFO record publishes, beside `BLOCK_SIZE` (`blockSize_lt`). -/
theorem publishedSizes_of_algOk {a : Alg} (ha : algOk a = true) :
    (∀ n ∈ a.keySizes, 1 ≤ n ∧ n < 65536) ∧ a.keySizes.Pairwise (· < ·) ∧ a.roundCount < 65536 ∧
      a.rkBytes ≤ a.blockSize := by
  simp only [algOk, sizeOk, Bool.and_eq_true, decide_eq_true_eq, List.all_eq_true, ascending_iff_isChain] at ha
  obtain ⟨⟨⟨⟨⟨⟨⟨⟨⟨-, -⟩, hkeys⟩, hasc⟩, hrounds⟩, hrk⟩, -⟩, -⟩, -⟩, -⟩ := ha
  exact ⟨fun n hn => ⟨(hkeys n hn).1, Nat.lt_succ_of_le (hkeys n hn).2⟩, hasc.pairwise, Nat.lt_succ_of_le hrounds.2, hrk.2⟩

/-- `NKS` fits 16 bits: the key sizes are different members of 1..65535 (R6). -/
theorem keySizes_length_lt {a : Alg} (ha : algOk a = true) : a.keySizes.length < 65536 := by
  obtain ⟨hkeys, hasc, -⟩ := publishedSizes_of_algOk ha
  have hnodup : a.keySizes.Nodup := hasc.imp Nat.ne_of_lt
  have hsub : a.keySizes ⊆ List.range' 1 65535 := fun n hn => List.mem_range'_1.mpr (hkeys n hn)
  have hle := (List.subperm_of_subset hnodup hsub).length_le
  rw [List.length_range'] at hle
  exact Nat.lt_succ_of_le hle

theorem infoFields_lt {a : Alg} (ha : algOk a = true) : ∀ n ∈ infoFields a, n < 65536 := by
  obtain ⟨hkeys, -, hrounds, hrk⟩ := publishedSizes_of_algOk ha
  have hblock := blockSize_lt ha
  simp only [infoFields, List.forall_mem_cons]
  exact ⟨hblock, hrounds, hrk.trans_lt hblock, keySizes_length_lt ha, fun n hn => (hkeys n hn).2⟩

/-- Settles O21: the record is its fields in order, each at twice its index. -/
theorem infoRecordLayout : Obligations.InfoRecordLayout := by
  intro a ha
  rw [infoRecord_eq_flatMap]
  have hlen : (infoFields a).length = 4 + a.keySizes.length := Nat.add_comm _ 4
  have hfield {j : Nat} (hj : j < (infoFields a).length) := flatMap_le16_field (infoFields_lt ha) hj
  refine ⟨?_, hfield (j := 0) (by omega), hfield (j := 1) (by omega), hfield (j := 2) (by omega),
    hfield (j := 3) (by omega), fun j hj => ?_, (publishedSizes_of_algOk ha).2.1⟩
  · rw [flatMap_le16_length, hlen, Nat.mul_add]
  · have hlo : 8 + 2 * j = 2 * (j + 4) := by omega
    have hhi : 9 + 2 * j = 2 * (j + 4) + 1 := by omega
    rw [hlo, hhi]
    exact hfield (j := j + 4) (by omega)

end Sys2Proof.Machine
end

section
/-! PROOFS. The reference records (R185 to R205): SREF's formula and circuit against the tables, the two key mixings as byte-by-byte
operations, the two diffusions undone by their inverses, and the check of the records under either strategy. -/

namespace Sys2Proof.Machine

/-! ## SREF and SREF_INV (R186, R187) -/

/-- The masked-entry circuit is the full scan of R81 written out, without its table reads. -/
theorem scanTable_val_eq_tableCircuit (sp : Space) (x : Byte) (i : Nat) (ts : Bytes) (acc : Byte) :
    (scanTable sp x i ts acc).val = acc ||| (tableCircuit i ts).eval [x] := by
  induction ts generalizing i acc with
  | nil => simp [scanTable, tableCircuit, ByteExpr.eval]
  | cons t ts ih =>
    rw [scanTable, Traced.after_val, ih, BitVec.or_assoc]
    rfl

/-- The circuit of a table of at most 256 entries gives the entry at its input. -/
theorem tableCircuit_eval {ts : Bytes} (hts : ts.length ≤ 256) (x : Byte) :
    (tableCircuit 0 ts).eval [x] = byteAt ts x.toNat := by
  have hscan := scanTable_val .sboxInv x 0 ts 0#8 (by omega)
  simpa [scanTable_val_eq_tableCircuit] using hscan

theorem tableCircuit_inRange (i : Nat) (ts : Bytes) : (tableCircuit i ts).inRange 1 = true := by
  induction ts generalizing i with
  | nil => rfl
  | cons t ts ih => exact ih (i + 1)

theorem map_byteAt_range {n : Nat} {v : Bytes} (hv : v.length = n) : (List.range n).map (byteAt v) = v := by
  subst hv
  exact List.ext_getElem (by simp) (by simp +contextual [byteAt])

/-- The values of an operation on all bytes are a table when it gives each byte's entry. -/
theorem map_allBytes_eq_of_byteAt {f : Byte → Byte} {t : Bytes} (ht : t.length = 256) (hf : ∀ x, f x = byteAt t x.toNat) :
    allBytes.map f = t := by
  rw [← map_byteAt_range ht, allBytes, List.map_map]
  refine List.map_congr_left fun i hi => ?_
  rw [Function.comp_apply, hf, BitVec.toNat_ofNat, Nat.mod_eq_of_lt (List.mem_range.mp hi)]

/-- R186: the normative table, entry by entry. -/
theorem map_srefFormula_eq_sref : allBytes.map (fun x => srefFormula.eval [x]) = sref := by decide +kernel

/-- Both records' tables pass the check of R7; it is read off REF16's. -/
theorem sref_tables : sref.length = 256 ∧ srefInv.length = 256 ∧ ∀ x : Byte, byteAt srefInv (byteAt sref x.toNat).toNat = x :=
  tables_of_algOk (a := resetAlg) resetAlg_ok

/-- Settles O36: the formula's values are the table, the circuit picks the entry at its input, and the tables pass the check of R7. -/
theorem srefFormulaIsTheTable : Obligations.SrefFormulaIsTheTable := fun x =>
  have ⟨_, hinvLength, hinverse⟩ := sref_tables
  ⟨by rw [← map_srefFormula_eq_sref, byteAt_map_allBytes], tableCircuit_eval hinvLength.le x, hinverse x⟩

/-! ## The check of a reference record does not depend on its strategy (R190, R200, U2) -/

/-- Any record of the tables SREF and SREF_INV may use the formula of SREF (R83). -/
theorem strategyOk_srefFormulaStrategy {a : Alg} (hs : a.sboxStrategy = srefFormulaStrategy) (hsbox : a.sbox = sref)
    (hsboxInv : a.sboxInv = srefInv) : strategyOk a = true := by
  obtain ⟨-, hinvLength, -⟩ := sref_tables
  have hcircuit : allBytes.map (fun x => (tableCircuit 0 srefInv).eval [x]) = srefInv :=
    map_allBytes_eq_of_byteAt hinvLength (tableCircuit_eval hinvLength.le)
  have hnames : srefFormula.inRange 1 = true := rfl
  simp [strategyOk, hs, srefFormulaStrategy, hsbox, hsboxInv, hnames, tableCircuit_inRange, map_srefFormula_eq_sref, hcircuit]

/-- The strategy enters the check in the formula clause alone. -/
theorem algOk_of_strategyOk {a : Alg} (ha : algOk a = true) {st : SboxStrategy}
    (hst : strategyOk { a with sboxStrategy := st } = true) : algOk { a with sboxStrategy := st } = true := by
  simp only [algOk, Bool.and_eq_true] at ha ⊢
  obtain ⟨hrest, -⟩ := ha
  exact ⟨hrest, hst⟩

theorem ref16_formula_ok : algOk (ref16 srefFormulaStrategy) = true :=
  algOk_of_strategyOk (a := ref16 .fullScan) resetAlg_ok (strategyOk_srefFormulaStrategy rfl rfl rfl)

theorem ref8_fullScan_ok : algOk (ref8 .fullScan) = true := by decide +kernel

theorem ref8_formula_ok : algOk (ref8 srefFormulaStrategy) = true :=
  algOk_of_strategyOk (a := ref8 .fullScan) ref8_fullScan_ok (strategyOk_srefFormulaStrategy rfl rfl rfl)

/-! ## Key mixing, byte by byte (R191, R201) -/

/-- The network that joins byte `i` of a vector with byte `i` of a key behind it, by `op`: the shape of
`xorKeymix`, `keymix8` and `keymixInv8`. -/
def bytewise (op : ByteExpr → ByteExpr → ByteExpr) (n : Nat) : List Layer :=
  [.bytes ((List.range n).map fun i => op (.input i) (.input (n + i)))]

theorem evalLayers_bytewise {op : ByteExpr → ByteExpr → ByteExpr} {f : Byte → Byte → Byte}
    (hop : ∀ v d e, (op d e).eval v = f (d.eval v) (e.eval v)) {n : Nat} {x k : Bytes} (hx : x.length = n)
    (hk : k.length = n) : evalLayers (bytewise op n) (x ++ k) = List.zipWith f x k := by
  subst hx
  refine List.ext_getElem (by simp [evalLayers, bytewise, Layer.eval, hk]) fun i hi hi' => ?_
  have hix : i < x.length := by simpa [hk] using hi'
  have hik : i < k.length := by omega
  simp [evalLayers, bytewise, Layer.eval, hop, ByteExpr.eval, byteAt, List.getElem?_append_left, hix, hik]

theorem zipWith_zipWith_cancel {f g : Byte → Byte → Byte} (hgf : ∀ d e, g (f d e) e = d) {x k : Bytes}
    (h : x.length = k.length) : List.zipWith g (List.zipWith f x k) k = x :=
  List.ext_getElem (by simp [h]) (by simp [hgf])

/-- A byte-by-byte mixing is undone by the one that undoes it on each byte (R7). -/
theorem bytewise_bytewise_cancel {op opInv : ByteExpr → ByteExpr → ByteExpr} {f g : Byte → Byte → Byte}
    (hop : ∀ v d e, (op d e).eval v = f (d.eval v) (e.eval v))
    (hopInv : ∀ v d e, (opInv d e).eval v = g (d.eval v) (e.eval v)) (hgf : ∀ d e, g (f d e) e = d)
    {n : Nat} {x k : Bytes} (hx : x.length = n) (hk : k.length = n) :
    evalLayers (bytewise opInv n) (evalLayers (bytewise op n) (x ++ k) ++ k) = x := by
  rw [evalLayers_bytewise hop hx hk, evalLayers_bytewise hopInv (by simp [hx, hk]) hk,
    zipWith_zipWith_cancel hgf (hx.trans hk.symm)]

theorem ref16_keymixInverts (st : SboxStrategy) : KeymixInverts (ref16 st) := fun _ _ =>
  bytewise_bytewise_cancel (op := .xor) (opInv := .xor) (fun _ _ _ => rfl) (fun _ _ _ => rfl)
    fun _ _ => by rw [BitVec.xor_assoc, BitVec.xor_self, BitVec.xor_zero]

theorem ref8_keymixInverts (st : SboxStrategy) : KeymixInverts (ref8 st) := fun _ _ =>
  bytewise_bytewise_cancel (op := .add) (opInv := .sub) (fun _ _ _ => rfl) (fun _ _ _ => rfl)
    BitVec.add_sub_cancel

/-! ## REF16's diffusion (R192, R193) -/

theorem byteAt_bytes_eval {n : Nat} (es : Nat → ByteExpr) (v : Bytes) {i : Nat} (hi : i < n) :
    byteAt ((Layer.bytes ((List.range n).map es)).eval v) i = (es i).eval v := by
  simp [byteAt, Layer.eval, hi]

/-- A byte network gives `v` when its output byte `i` is `v[i]`. -/
theorem bytes_eval_eq {n : Nat} {es : Nat → ByteExpr} {u v : Bytes} (hv : v.length = n)
    (h : ∀ i < n, (es i).eval u = byteAt v i) : (Layer.bytes ((List.range n).map es)).eval u = v := by
  rw [← map_byteAt_range hv, Layer.eval, List.map_map]
  exact List.map_congr_left fun i hi => h i (List.mem_range.mp hi)

/-- The xor of the group of four bytes from `g` on: `t` of R192. -/
def groupXor (v : Bytes) (g : Nat) : Byte := byteAt v g ^^^ byteAt v (g + 1) ^^^ byteAt v (g + 2) ^^^ byteAt v (g + 3)

/-- `MIX4`, byte by byte (R192). -/
theorem byteAt_mix4 (v : Bytes) {i : Nat} (hi : i < 16) :
    byteAt (mix4.eval v) i = groupXor v (4 * (i / 4)) ^^^ byteAt v i :=
  byteAt_bytes_eval _ v hi

/-- The byte identity behind R193: four bytes, each joined with their xor `t`, have the xor `4t xor t = t`. -/
theorem xor_four_mixed {b c d e t : Byte} (ht : t = b ^^^ c ^^^ d ^^^ e) :
    (t ^^^ b) ^^^ (t ^^^ c) ^^^ (t ^^^ d) ^^^ (t ^^^ e) = t := by
  grind

theorem groupXor_mix4 (v : Bytes) {q : Nat} (hq : q < 4) : groupXor (mix4.eval v) (4 * q) = groupXor v (4 * q) := by
  have hbyte (i : Nat) (hi : i / 4 = q) : byteAt (mix4.eval v) i = groupXor v (4 * q) ^^^ byteAt v i :=
    hi ▸ byteAt_mix4 v (by omega)
  rw [groupXor, hbyte (4 * q) (by omega), hbyte (4 * q + 1) (by omega), hbyte (4 * q + 2) (by omega),
    hbyte (4 * q + 3) (by omega)]
  exact xor_four_mixed rfl

/-- `MIX4` is an involution (R192). -/
theorem mix4_mix4 {v : Bytes} (hv : v.length = 16) : mix4.eval (mix4.eval v) = v := by
  refine bytes_eval_eq hv fun i hi => ?_
  calc groupXor (mix4.eval v) (4 * (i / 4)) ^^^ byteAt (mix4.eval v) i
    _ = groupXor v (4 * (i / 4)) ^^^ (groupXor v (4 * (i / 4)) ^^^ byteAt v i) := by
      rw [groupXor_mix4 v (by omega), byteAt_mix4 v hi]
    _ = byteAt v i := by rw [← BitVec.xor_assoc, BitVec.xor_self, BitVec.zero_xor]

/-- The byte permutation of R192 and R193 that takes output byte `i` from place `m * i mod 16`. -/
def permute16 (m : Nat) : Layer := .bytes ((List.range 16).map fun i => .input (m * i % 16))

/-- `j -> 13j mod 16` undoes `i -> 5i mod 16` (R193). -/
theorem permute16_13_permute16_5 {v : Bytes} (hv : v.length = 16) : (permute16 13).eval ((permute16 5).eval v) = v := by
  refine bytes_eval_eq hv fun j hj => ?_
  calc byteAt ((permute16 5).eval v) (13 * j % 16)
    _ = byteAt v (5 * (13 * j % 16) % 16) := byteAt_bytes_eval _ v (by omega)
    _ = byteAt v j := by rw [show 5 * (13 * j % 16) % 16 = j by omega]

theorem ref16_diffuseInverts (st : SboxStrategy) : DiffuseInverts (ref16 st) := fun b hb =>
  calc (permute16 13).eval (mix4.eval (mix4.eval ((permute16 5).eval b)))
    _ = (permute16 13).eval ((permute16 5).eval b) := by rw [mix4_mix4 (by simp [permute16, Layer.eval])]
    _ = b := permute16_13_permute16_5 hb

/-! ## REF8's diffusion: the vector as one big-endian integer (R203, R204) -/

theorem ofBigEndian_append (v : Bytes) (b : Byte) : ofBigEndian (v ++ [b]) = ofBigEndian v * 256 + b.toNat := by
  simp [ofBigEndian]

/-- The last byte is the least significant one. -/
theorem toBigEndian_succ (n x : Nat) : toBigEndian (n + 1) x = toBigEndian n (x / 256) ++ [BitVec.ofNat 8 x] := by
  rw [toBigEndian, List.range_succ, List.map_append]
  congr 1
  · refine List.map_congr_left fun i hi => ?_
    have hi := List.mem_range.mp hi
    have hshift : 8 * (n + 1 - 1 - i) = 8 + 8 * (n - 1 - i) := by omega
    rw [hshift, Nat.shiftRight_add, Nat.shiftRight_eq_div_pow x 8]
  · simp

theorem ofBigEndian_toBigEndian {n x : Nat} (h : x < 2 ^ (8 * n)) : ofBigEndian (toBigEndian n x) = x := by
  induction n generalizing x with
  | zero =>
    obtain rfl : x = 0 := by simpa using h
    rfl
  | succ n ih =>
    rw [Nat.mul_succ, Nat.pow_add] at h
    rw [toBigEndian_succ, ofBigEndian_append, ih (by omega), BitVec.toNat_ofNat]
    omega

theorem toBigEndian_ofBigEndian (v : Bytes) : toBigEndian v.length (ofBigEndian v) = v := by
  induction v using List.reverseRecOn with
  | nil => rfl
  | append_singleton v b ih =>
    have hb := b.isLt
    have hrest : (ofBigEndian v * 256 + b.toNat) / 256 = ofBigEndian v := by omega
    have hlast : BitVec.ofNat 8 (ofBigEndian v * 256 + b.toNat) = b := by bv_omega
    rw [List.length_append, List.length_singleton, toBigEndian_succ, ofBigEndian_append, hrest, hlast, ih]

theorem ofBigEndian_lt (v : Bytes) : ofBigEndian v < 2 ^ (8 * v.length) := by
  induction v using List.reverseRecOn with
  | nil => simp [ofBigEndian]
  | append_singleton v b ih =>
    have hb := b.isLt
    rw [ofBigEndian_append, List.length_append, List.length_singleton, Nat.mul_add, Nat.pow_add]
    omega

theorem rotateRight_rotateLeft {w : Nat} (x : BitVec w) (n : Nat) : (x.rotateLeft n).rotateRight n = x := by
  ext i hi
  have hn : n % w < w := Nat.mod_lt _ (by omega)
  rw [BitVec.getElem_rotateRight]
  split
  · rw [BitVec.getElem_rotateLeft, dif_neg (by omega)]
    congr 1
    omega
  · rw [BitVec.getElem_rotateLeft, dif_pos (by omega)]
    congr 1
    omega

/-- Rotating the bytes of an integer right is rotating the integer (R204). -/
theorem rotrBytes_toBigEndian (r n : Nat) (x : BitVec (8 * n)) :
    rotrBytes r (toBigEndian n x.toNat) = toBigEndian n (x.rotateRight r).toNat := by
  rw [rotrBytes, toBigEndian_length, ofBigEndian_toBigEndian x.isLt, BitVec.ofNat_toNat, BitVec.setWidth_eq]

theorem rotrBytes_rotlBytes (r : Nat) (v : Bytes) : rotrBytes r (rotlBytes r v) = v := by
  rw [rotlBytes, rotrBytes_toBigEndian, rotateRight_rotateLeft, BitVec.toNat_ofNat, Nat.mod_eq_of_lt (ofBigEndian_lt v),
    toBigEndian_ofBigEndian]

theorem ref8_diffuseInverts (st : SboxStrategy) : DiffuseInverts (ref8 st) := fun b _ => rotrBytes_rotlBytes 11 b

/-- Settles O37: the check of each record, and the two laws, which hold under every strategy. -/
theorem referenceRecordsConform : Obligations.ReferenceRecordsConform :=
  ⟨⟨resetAlg_ok, ref16_keymixInverts _, ref16_diffuseInverts _⟩,
    ⟨ref16_formula_ok, ref16_keymixInverts _, ref16_diffuseInverts _⟩,
    ⟨ref8_fullScan_ok, ref8_keymixInverts _, ref8_diffuseInverts _⟩,
    ⟨ref8_formula_ok, ref8_keymixInverts _, ref8_diffuseInverts _⟩⟩

end Sys2Proof.Machine
end

section
/-! PROOFS. Errors and confinement (R220 to R236): what every command is answered with, said once: its status, `STATE` after it
and the payload. The priority of errors (R226) and what an answer can show of a secret (R236) are read off it. -/

namespace Sys2Proof.Machine

/-! ## Taking an error (R221) -/

/-- The word of an error response: the code, and READY (R62). -/
theorem responseWord_error (e : Error) (flag : StateFlag) :
    responseWord e.status flag 0 = e.status.code.setWidth 32 ||| (if flag = .ready then 0x00000100#32 else 0#32) := by
  cases e <;> cases flag <;> decide

/-- Settles O14: an error is a response without payload, and each error has its code. -/
theorem errorResponse : Obligations.ErrorResponse := by
  intro s e
  rw [State.raise, State.respond, List.length_nil, responseWord_error]
  cases e <;> rfl

/-! ## Every command is answered (R156, R228) -/

/-- Settles O11: an instruction's meaning and the InvalidCommand response both end in a next state. -/
theorem everyCommandIsAnswered : Obligations.EveryCommandIsAnswered := by
  intro s c hrun
  rw [step_of_canRun hrun]
  cases hdec : decode c with
  | error e => exact ⟨_, _, runCommand_error hdec, rfl, rfl, rfl⟩
  | ok i =>
    obtain ⟨t, ht, -, hcmd, hhost, -, q, hq⟩ := exec_next i s.accept
    exact ⟨t, q, (runCommand_ok hdec).trans ht, hcmd, hq, hhost⟩

/-! ## The answer to an instruction -/

/-- The status of KEYLOAD: the size before the state (R141, R226). -/
def keyloadStatus (a : Alg) (flag : StateFlag) (len : Nat) : Status :=
  if len ∉ a.keySizes then .invalidKeySize else if flag = .ready then .invalidState else .ok

/-- The status of ENCRYPT and DECRYPT: the size before the state (R142, R143, R226). -/
def blockStatus (a : Alg) (flag : StateFlag) (len : Nat) : Status :=
  if len ≠ a.blockSize then .invalidBlockSize else if flag = .uninit then .invalidState else .ok

/-- The status of an instruction: a function of the constants, `STATE` and the operand's length (R220). -/
def statusOf (a : Alg) (flag : StateFlag) : Instr → Status
  | .keyload key => keyloadStatus a flag key.length
  | .encrypt b | .decrypt b => blockStatus a flag b.length
  | .zeroize | .info => .ok

/-- `STATE` after an instruction (R21): a KEYLOAD that succeeds ends in READY, ZEROIZE in UNINIT. -/
def nextFlag (a : Alg) (flag : StateFlag) : Instr → StateFlag
  | .keyload key => if keyloadStatus a flag key.length = .ok then .ready else flag
  | .zeroize => .uninit
  | .encrypt _ | .decrypt _ | .info => flag

/-- The payload of an instruction's OK response: a block, the INFO record, or nothing. -/
def resultOf (s : State) : Instr → Bytes
  | .encrypt b => (encryptRounds s.alg s.rk b).val
  | .decrypt b => (decryptRounds s.alg s.rk b).val
  | .info => infoRecord s.alg
  | .keyload _ | .zeroize => []

/-- The payload of an instruction's response; an error's is empty (R221). -/
def answerPayload (s : State) (i : Instr) : Bytes := if statusOf s.alg s.stateFlag i = .ok then resultOf s i else []

/-- The response to an instruction. -/
def answerOf (s : State) (i : Instr) : Response :=
  ⟨responseWord (statusOf s.alg s.stateFlag i) (nextFlag s.alg s.stateFlag i) (answerPayload s i).length, answerPayload s i⟩

theorem answerOf_status (s : State) (i : Instr) : (answerOf s i).status = (statusOf s.alg s.stateFlag i).code :=
  responseWord_status ..

theorem keyloadStatus_code (a : Alg) (flag : StateFlag) (len : Nat) :
    (keyloadStatus a flag len).code = if len ∉ a.keySizes then 0x01#8 else if flag = .ready then 0x03#8 else 0x00#8 := by
  rw [keyloadStatus, apply_ite Status.code, apply_ite Status.code]
  rfl

theorem blockStatus_code (a : Alg) (flag : StateFlag) (len : Nat) :
    (blockStatus a flag len).code = if len ≠ a.blockSize then 0x02#8 else if flag = .uninit then 0x03#8 else 0x00#8 := by
  rw [blockStatus, apply_ite Status.code, apply_ite Status.code]
  rfl

theorem blockStatus_eq_ok_iff (a : Alg) (flag : StateFlag) (len : Nat) :
    blockStatus a flag len = .ok ↔ len = a.blockSize ∧ flag = .ready := by
  by_cases hlen : len = a.blockSize <;> cases flag <;> simp [blockStatus, hlen]

/-- The response of a block command: its status, `STATE` as it was, and the rounds' result where the status is OK (R142, R143). -/
theorem blockCommand_rsp (s : State) (b : Bytes) (r : Nat) (f : Nat → Bytes → Traced Bytes) :
    let st := blockStatus s.alg s.stateFlag b.length
    let q := if st = .ok then (f r b).val else []
    (s.blockCommand b r f).rsp = some ⟨responseWord st s.stateFlag q.length, q⟩ := by
  by_cases hb : b.length = s.alg.blockSize
  · cases hs : s.stateFlag with
    | uninit => simp [blockCommand_uninit s b r f hb hs, blockStatus, hb, hs, Error.status]
    | ready => simp [blockCommand_ready s b r f hb hs, blockStatus, hb, hs]
  · simp [blockCommand_wrongSize s b r f hb, blockStatus, hb, Error.status]

/-- The response of KEYLOAD has no payload (R141). -/
theorem execKeyload_rsp (key : Bytes) (s : State) :
    ∃ t, execKeyload key s = .next t ∧ t.rsp = some (answerOf s (.keyload key)) := by
  by_cases hkey : key.length ∈ s.alg.keySizes
  · cases hs : s.stateFlag with
    | ready =>
      exact ⟨_, execKeyload_ready hkey hs, by
        simp [answerOf, answerPayload, statusOf, nextFlag, keyloadStatus, hkey, hs, Error.status]⟩
    | uninit =>
      have hsize : ¬ s.acceptsKey key = false := by simpa [State.acceptsKey, validKeySize] using hkey
      have huninit : ¬ s.stateFlag = .ready := by simp [hs]
      exact ⟨_, (if_neg hsize).trans (if_neg huninit), by
        simp [answerOf, answerPayload, statusOf, nextFlag, resultOf, keyloadStatus, hkey, hs, State.loadKey]⟩
  · exact ⟨_, execKeyload_wrongSize hkey, by
      simp [answerOf, answerPayload, statusOf, nextFlag, keyloadStatus, hkey, Error.status]⟩

/-- Every instruction is answered with its status, `STATE` after it and its payload (R62). -/
theorem exec_rsp (i : Instr) (s : State) : ∃ t, exec i s = .next t ∧ t.rsp = some (answerOf s i) := by
  cases i with
  | keyload key => exact execKeyload_rsp key s
  | encrypt b => exact ⟨_, rfl, blockCommand_rsp ..⟩
  | decrypt b => exact ⟨_, rfl, blockCommand_rsp ..⟩
  | zeroize => exact ⟨_, rfl, rfl⟩
  | info => exact ⟨_, rfl, rfl⟩

/-! ## One status per command (R226) -/

/-- The status of a complete command that decodes, by its fields: the size error, then InvalidState, else OK. -/
theorem statusOf_code_of_decode {c : Command} {i : Instr} (hfull : c.complete = true) (hdec : decode c = .ok i) (a : Alg)
    (flag : StateFlag) : (statusOf a flag i).code =
      if c.opcode = 0x01#8 ∧ c.len.toNat ∉ a.keySizes then 0x01#8
      else if (c.opcode = 0x02#8 ∨ c.opcode = 0x03#8) ∧ c.len.toNat ≠ a.blockSize then 0x02#8
      else if (c.opcode = 0x01#8 ∧ flag = .ready) ∨ ((c.opcode = 0x02#8 ∨ c.opcode = 0x03#8) ∧ flag = .uninit) then 0x03#8
      else 0x00#8 := by
  obtain ⟨-, hop, hcar⟩ := (decode_eq_ok_iff c i).mp hdec
  have hlen : i.operand.length = c.len.toNat := (c.carries_iff hfull i).mp hcar ▸ c.complete_iff.mp hfull
  cases i with
  | keyload key => simp [statusOf, keyloadStatus_code, hop, Laws.opcodeOf, ← hlen, Instr.operand]
  | encrypt b | decrypt b => simp [statusOf, blockStatus_code, hop, Laws.opcodeOf, ← hlen, Instr.operand]
  | zeroize | info => simp [statusOf, hop, Laws.opcodeOf, Status.code]

/-- Settles O15: an illegal word is answered InvalidCommand, a legal one with its instruction's status. -/
theorem errorPriority : Obligations.ErrorPriority := by
  intro s c hrun
  have ⟨_, _, hfull, _⟩ := hrun
  have hillegal := illegalCommandChangesNothing.1 c
  rw [step_of_canRun hrun]
  cases hdec : decode c with
  | error e =>
    refine ⟨_, _, runCommand_error hdec, rfl, ?_⟩
    rw [if_pos (hillegal.mp ⟨e, hdec⟩)]
    exact responseWord_status ..
  | ok i =>
    obtain ⟨t, ht, hrsp⟩ := exec_rsp i s.accept
    refine ⟨t, _, (runCommand_ok hdec).trans ht, hrsp, ?_⟩
    have hlegal : ¬ ∃ e, decode c = .error e := by simp [hdec]
    rw [if_neg (hlegal ∘ hillegal.mpr), answerOf_status]
    exact statusOf_code_of_decode hfull hdec s.alg s.stateFlag

/-! ## What an answer shows of a secret (R236) -/

/-- An instruction other than ENCRYPT and DECRYPT. -/
def NotBlock (i : Instr) : Prop := ∀ b, i ≠ .encrypt b ∧ i ≠ .decrypt b

theorem notBlock_withOperand (i : Instr) (q : Bytes) : NotBlock (i.withOperand q) ↔ NotBlock i := by
  cases i <;> simp [NotBlock, Instr.withOperand]

/-- Status and next `STATE` see the operand's length only (R220). -/
theorem statusOf_withOperand (a : Alg) (flag : StateFlag) (i : Instr) {p q : Bytes} (hlen : SameLength p q) :
    statusOf a flag (i.withOperand q) = statusOf a flag (i.withOperand p) := by
  cases i <;> simp [Instr.withOperand, statusOf, show p.length = q.length from hlen]

theorem nextFlag_withOperand (a : Alg) (flag : StateFlag) (i : Instr) {p q : Bytes} (hlen : SameLength p q) :
    nextFlag a flag (i.withOperand q) = nextFlag a flag (i.withOperand p) := by
  cases i <;> simp [Instr.withOperand, nextFlag, show p.length = q.length from hlen]

/-- No result but a block depends on the operand or on `RK`. -/
theorem resultOf_congr {s t : State} (halg : t.alg = s.alg) {i : Instr} (hi : NotBlock i) (p q : Bytes) :
    resultOf t (i.withOperand q) = resultOf s (i.withOperand p) := by
  cases i with
  | encrypt b => exact absurd rfl (hi b).1
  | decrypt b => exact absurd rfl (hi b).2
  | info => exact congrArg infoRecord halg
  | keyload _ | zeroize => rfl

/-- An OK block command answers a whole block, whatever the key (R142, R143). -/
theorem resultOf_length {s : State} (ha : algOk s.alg = true) (hshape : s.RkShape) {i : Instr} (hblock : ¬ NotBlock i)
    (hok : statusOf s.alg s.stateFlag i = .ok) : (resultOf s i).length = s.alg.blockSize := by
  cases i with
  | encrypt b => exact encryptRounds_length ha hshape ((blockStatus_eq_ok_iff ..).mp hok).1
  | decrypt b => exact decryptRounds_length ha hshape ((blockStatus_eq_ok_iff ..).mp hok).1
  | keyload _ | zeroize | info => exact absurd (fun b => by simp) hblock

section TwoRuns

variable {s t : State} (halg : t.alg = s.alg) (hflag : t.stateFlag = s.stateFlag) {i : Instr} {p q : Bytes}
  (hlen : SameLength p q)
include halg hflag hlen

/-- But for the payload of an OK block command, the payload is the same in both runs. -/
theorem answerPayload_congr (h : NotBlock i ∨ statusOf s.alg s.stateFlag (i.withOperand p) ≠ .ok) :
    answerPayload t (i.withOperand q) = answerPayload s (i.withOperand p) := by
  simp only [answerPayload, halg, hflag, statusOf_withOperand s.alg s.stateFlag i hlen]
  rcases h with hi | herr
  · rw [resultOf_congr halg hi]
  · rw [if_neg herr, if_neg herr]

/-- The payload's length is the same in both runs. -/
theorem answerPayload_length_congr (ha : algOk s.alg = true) (hs : s.RkShape) (ht : t.RkShape) :
    (answerPayload t (i.withOperand q)).length = (answerPayload s (i.withOperand p)).length := by
  by_cases h : NotBlock i ∨ statusOf s.alg s.stateFlag (i.withOperand p) ≠ .ok
  · rw [answerPayload_congr halg hflag hlen h]
  · obtain ⟨hblock, hok⟩ := not_or.mp h
    have hok : statusOf s.alg s.stateFlag (i.withOperand p) = .ok := not_not.mp hok
    have hok' : statusOf t.alg t.stateFlag (i.withOperand q) = .ok := by
      rw [halg, hflag, statusOf_withOperand s.alg s.stateFlag i hlen, hok]
    have hresult := resultOf_length ha hs (mt (notBlock_withOperand i p).mp hblock) hok
    have hresult' := resultOf_length (halg ▸ ha) ht (mt (notBlock_withOperand i q).mp hblock) hok'
    rw [answerPayload, answerPayload, if_pos hok, if_pos hok', hresult, hresult', halg]

/-- Every field of the response word is the same in both runs (R236 (b)). -/
theorem answerOf_word_congr (ha : algOk s.alg = true) (hs : s.RkShape) (ht : t.RkShape) :
    (answerOf t (i.withOperand q)).word = (answerOf s (i.withOperand p)).word := by
  simp only [answerOf, answerPayload_length_congr halg hflag hlen ha hs ht]
  rw [halg, hflag, statusOf_withOperand s.alg s.stateFlag i hlen, nextFlag_withOperand s.alg s.stateFlag i hlen]

end TwoRuns

/-- Settles O43: one command word means one instruction with operands of one length, or none, which is answered InvalidCommand. -/
theorem onlyBlocksLeaveTheEngine : Obligations.OnlyBlocksLeaveTheEngine := by
  intro s t c d hc hd halg hflag hword hs ht
  have ⟨ha, _, hfullc, _⟩ := hc
  have ⟨_, _, hfulld, _⟩ := hd
  have hlen := Command.payload_sameLength hword hfullc hfulld
  rw [step_of_canRun hc, step_of_canRun hd]
  cases hdec : decode c with
  | error e =>
    obtain ⟨e', hdec'⟩ := decode_error_of_word_eq hword hdec
    have hsame : (t.accept.start.raise .command).rsp = (s.accept.start.raise .command).rsp := by simp [hflag]
    exact ⟨_, _, _, _, runCommand_error hdec, runCommand_error hdec', rfl, hsame, rfl, fun _ => rfl⟩
  | ok i =>
    have hdecc : decode c = .ok (i.withOperand c.payload) := decode_withOperand rfl hdec
    have hdecd : decode d = .ok (i.withOperand d.payload) := decode_withOperand hword hdec
    obtain ⟨s', hs', hp⟩ := exec_rsp (i.withOperand c.payload) s.accept
    obtain ⟨t', ht', hq⟩ := exec_rsp (i.withOperand d.payload) t.accept
    have hwordEq : (answerOf t.accept (i.withOperand d.payload)).word = (answerOf s.accept (i.withOperand c.payload)).word :=
      answerOf_word_congr halg hflag hlen ha hs ht
    refine ⟨s', t', _, _, (runCommand_ok hdecc).trans hs', (runCommand_ok hdecd).trans ht', hp, hq, hwordEq, fun h => ?_⟩
    have hquiet : NotBlock i ∨ statusOf s.alg s.stateFlag (i.withOperand c.payload) ≠ .ok := by
      refine h.imp (fun hb b => ?_) fun herr hok => herr ?_
      · simpa [hdec] using hb b
      · exact (answerOf_status ..).trans (congrArg Status.code hok)
    have hpayload := answerPayload_congr (s := s.accept) (t := t.accept) halg hflag hlen hquiet
    exact congrArg₂ Response.mk hwordEq hpayload

end Sys2Proof.Machine
end

section
/-! PROOFS. Reset and hazards (R250 to R261): each move of the host said once, reset in any state, the handshakes of the channels, the
two ways an instance can stop, and REKEY. -/

namespace Sys2Proof.Machine

/-! ## The host's moves (R48, R60, R251, R260) -/

section HostMoves

variable {s : State} {rest : List HostMove}

theorem hostTurn_idle (hhost : s.host = []) : s.hostTurn = .next s := by
  rw [State.hostTurn, hhost]

theorem hostTurn_wait (hhost : s.host = .wait :: rest) : s.hostTurn = .next { s with host := rest } := by
  rw [State.hostTurn, hhost]

theorem hostTurn_command {c : Command} (hhost : s.host = .command c :: rest) :
    s.hostTurn = if s.cmd = none then .next { s with cmd := some c, host := rest } else .next s := by
  rw [State.hostTurn, hhost]

theorem hostTurn_take (hhost : s.host = .take :: rest) :
    s.hostTurn = if s.rsp = none then .next s else .next { s with rsp := none, host := rest } := by
  rw [State.hostTurn, hhost]

theorem hostTurn_payload_of_cmd_none {bs : Bytes} (hhost : s.host = .payload bs :: rest) (hcmd : s.cmd = none) :
    s.hostTurn = if bs = [] then .next { s with host := rest } else .fault .payloadOverrun := by
  simp only [State.hostTurn, State.receivePayload, hhost, hcmd]

theorem hostTurn_payload_overrun {c : Command} {bs : Bytes} (hhost : s.host = .payload bs :: rest) (hcmd : s.cmd = some c)
    (hexcess : c.len.toNat < c.payload.length + bs.length) : s.hostTurn = .fault .payloadOverrun := by
  simp only [State.hostTurn, State.receivePayload, hhost, hcmd, if_neg hexcess.not_ge]

theorem hostTurn_reset (hhost : s.host = .reset :: rest) : s.hostTurn = .next ({ s with host := rest }).assertReset := by
  rw [State.hostTurn, hhost]

/-- Reset takes the place of whatever else could happen (R253). -/
theorem step_of_reset (ha : algOk s.alg = true) (hhost : s.host = .reset :: rest) :
    step s = .next ({ s with host := rest }).assertReset := by
  simp only [step_of_algOk ha, State.turn, hhost, hostTurn_reset hhost]

end HostMoves

/-- Settles O10: reset comes before any other turn and keeps the constants and the script alone. -/
theorem resetAtAnyTime : Obligations.ResetAtAnyTime := fun _ _ => step_of_reset

/-- Settles O51: an engine held back leaves the turn to the host, and only an empty channel takes the offer. -/
theorem offeredCommandLandsOrWaits : Obligations.OfferedCommandLandsOrWaits := by
  refine fun s c rest ha hhost => ⟨fun hempty => ?_, fun d hcmd hbusy => ?_⟩
  · rw [step_of_heldBack ha (.inr (.inl hempty)), hostTurn_command hhost, if_pos hempty]
  · have hfull : s.cmd ≠ none := by simp [hcmd]
    rw [step_of_heldBack ha (hbusy.imp_right fun hshort => .inr ⟨d, hcmd, hshort⟩), hostTurn_command hhost, if_neg hfull]

/-- Settles O53: a held response keeps the engine back until the take, and then nothing else does. -/
theorem takenResponseFreesTheEngine : Obligations.TakenResponseFreesTheEngine := by
  refine fun s rest ha hhost => ⟨fun q hrsp => ?_, fun hrsp hnothing => ?_⟩
  · have hheld : s.rsp ≠ none := by simp [hrsp]
    refine ⟨_, ?_, rfl, fun c hcmd hfull hrest => ⟨ha, hcmd, hfull, rfl, hrest⟩⟩
    rw [step_of_heldBack ha (.inl hheld), hostTurn_take hhost, if_neg hheld]
  · rw [step_of_heldBack ha (.inr hnothing), hostTurn_take hhost, if_pos hrsp]

/-- Settles O54: with the engine held back, each is the host's turn. -/
theorem idleMoves : Obligations.IdleMoves := by
  intro s ha hheld
  rw [step_of_heldBack ha hheld]
  exact ⟨hostTurn_idle, fun _ => hostTurn_wait, fun _ _ => hostTurn_payload_of_cmd_none⟩

/-! ## The ways to stop (R260, U22; log entry 3) -/

/-- The host's next move sends at least one payload byte beyond LEN or without a command. -/
def State.SendsExcess (s : State) : Prop :=
  ∃ bs rest, s.host = .payload bs :: rest ∧ bs ≠ [] ∧
    (s.cmd = none ∨ ∃ c, s.cmd = some c ∧ c.len.toNat < c.payload.length + bs.length)

/-- The command on the channel has more payload bytes than its LEN. -/
def State.HoldsExcess (s : State) : Prop := ∃ c, s.cmd = some c ∧ c.len.toNat < c.payload.length

/-- The host's turn moves on, or stops on excess payload; it refuses nothing. -/
theorem hostTurn_next_or_excess (s : State) :
    (∃ t, s.hostTurn = .next t) ∨ (s.hostTurn = .fault .payloadOverrun ∧ (s.HoldsExcess ∨ s.SendsExcess)) := by
  cases hhost : s.host with
  | nil => exact .inl ⟨_, hostTurn_idle hhost⟩
  | cons move rest =>
    cases move with
    | command c =>
      rw [hostTurn_command hhost]
      split <;> exact .inl ⟨_, rfl⟩
    | take =>
      rw [hostTurn_take hhost]
      split <;> exact .inl ⟨_, rfl⟩
    | wait => exact .inl ⟨_, hostTurn_wait hhost⟩
    | reset => exact .inl ⟨_, hostTurn_reset hhost⟩
    | payload bs =>
      cases hcmd : s.cmd with
      | none =>
        rw [hostTurn_payload_of_cmd_none hhost hcmd]
        split
        · exact .inl ⟨_, rfl⟩
        next hbs => exact .inr ⟨rfl, .inr ⟨bs, rest, hhost, hbs, .inl hcmd⟩⟩
      | some c =>
        rcases le_or_gt (c.payload.length + bs.length) c.len.toNat with hfit | hexcess
        · exact .inl ⟨_, hostTurn_payload hhost hcmd hfit⟩
        · refine .inr ⟨hostTurn_payload_overrun hhost hcmd hexcess, ?_⟩
          by_cases hbs : bs = []
          · exact .inl ⟨c, hcmd, by simpa [hbs] using hexcess⟩
          · exact .inr ⟨bs, rest, hhost, hbs, .inr ⟨c, hcmd, hexcess⟩⟩

/-- A step of a conforming instance moves on, or stops on excess payload. -/
theorem step_next_or_excess {s : State} (ha : algOk s.alg = true) :
    (∃ t, step s = .next t) ∨ (step s = .fault .payloadOverrun ∧ (s.HoldsExcess ∨ s.SendsExcess)) := by
  rcases step_cases ha with ⟨rest, -, hreset⟩ | ⟨c, hrun, -⟩ | ⟨-, hhost⟩ | ⟨c, hcmd, hexcess, hfault⟩
  · exact .inl ⟨_, hreset⟩
  · obtain ⟨t, -, ht, -⟩ := everyCommandIsAnswered s c hrun
    exact .inl ⟨t, ht⟩
  · rw [hhost]
    exact hostTurn_next_or_excess s
  · exact .inr ⟨hfault, .inl ⟨c, hcmd, hexcess⟩⟩

/-- Settles O13: the only end of a step but a next state is the fault on excess payload. -/
theorem onlyExcessPayloadFaults : Obligations.OnlyExcessPayloadFaults := by
  intro s ha
  rcases step_next_or_excess ha with ⟨t, ht⟩ | ⟨hfault, hexcess⟩
  · rw [ht]
    exact ⟨nofun, nofun⟩
  · rw [hfault]
    exact ⟨nofun, fun _ _ => hexcess⟩

/-! ## REKEY (R69, R261) -/

/-- ZEROIZE leaves an engine that KEYLOAD accepts a key into (R170, R141). -/
theorem exec_zeroize_uninit {s : State} (hcount : s.rk.length = s.alg.roundCount) :
    ∃ t, exec .zeroize s = .next t ∧ t.rsp = some ⟨0x00000000#32, []⟩ ∧ t.alg = s.alg ∧ t.stateFlag = .uninit ∧
      t.rk.length = t.alg.roundCount := by
  obtain ⟨_, -, -, hexec⟩ := zeroizeMeaning s hcount
  exact ⟨_, hexec, rfl, rfl, rfl, (zeroKeys_shape s.alg).1⟩

/-- Settles O22: ZEROIZE opens the engine for the new key; without it KEYLOAD's state check fails and writes nothing. -/
theorem rekeyReplacesTheKey : Obligations.RekeyReplacesTheKey := by
  rintro s key ⟨hcount, -⟩ hready hkey
  constructor
  · obtain ⟨t, hzeroize, hrsp, halg, huninit, hcount'⟩ := exec_zeroize_uninit hcount
    obtain ⟨-, -, hfresh⟩ := keyloadMeaning t key
    obtain ⟨_, _, hderive, -, hload⟩ := hfresh (halg ▸ hkey) huninit hcount'
    exact ⟨t, _, hzeroize, hrsp, hload, rfl, rfl, halg ▸ hderive⟩
  · obtain ⟨-, hloaded, -⟩ := keyloadMeaning s key
    obtain ⟨_, -, -, hrefused⟩ := hloaded hkey hready
    refine ⟨_, hrefused, ?_, hready, rfl⟩
    rw [State.raise_rsp, responseWord_error, hready]
    rfl

end Sys2Proof.Machine
end
